-- ==== Sys2Proof/Word.lean ====
section
/-! DEFINITION. The word types of the block: 32-bit words, bytes and 5-bit register numbers (R10, R12, R20). -/

namespace Sys2Proof

/-- A register value, a pc value, an address or an instruction word: a 32-bit pattern (R12). -/
abbrev Word := BitVec 32

/-- One byte of memory (R50). -/
abbrev Byte := BitVec 8

/-- A register number 0..31 (R20). -/
abbrev RegIdx := BitVec 5

end Sys2Proof
end

