-- ==== Sys2Proof/Config.lean ====
section
/-! DEFINITION. The parameters the spec says a model takes (R11): `unmapped_write` and `jalr_link_first`.
The third parameter, `launch`, is `Machine.Launch`. The spec leaves no value undefined, so there is no free value here. -/

namespace Sys2Proof

/-- What a byte write to an unmapped address does (R57, parameter `unmapped_write`). -/
inductive UnmappedWrite where
  /-- It raises `UnmappedRegion`. -/
  | fault
  /-- It has no effect. -/
  | discard
  deriving DecidableEq, Repr

/-- The open parameters of an instance, fixed for its life (R11, R162). -/
structure Params where
  /-- `unmapped_write` (R57). -/
  unmappedWrite : UnmappedWrite
  /-- `jalr_link_first` (R242): whether JALR with rd = rs1 reads the new link as its base. -/
  jalrLinkFirst : Bool
  deriving DecidableEq, Repr

/-- The defaults of R11: `Fault` and `false`. -/
def Params.default : Params := ⟨.fault, false⟩

end Sys2Proof
end

