-- ==== Sys2Proof/Syntax.lean ====
section
/-! DEFINITION. The decoded instruction (R114): one constructor per row of spec/opcode_table.json, in the table's order.
Immediates are carried "already-sign-extended" to 32 bits; the ranges they keep are in WellFormed. -/

namespace Sys2Proof

/-- The 47 instructions of R3 with their operands (R102-R111). -/
inductive Instr where
  -- U format (R106): the immediate has its low 12 bits zero
  | lui (rd : RegIdx) (imm : Word)
  | auipc (rd : RegIdx) (imm : Word)
  -- I format (R103)
  | addi (rd rs1 : RegIdx) (imm : Word)
  | slti (rd rs1 : RegIdx) (imm : Word)
  | sltiu (rd rs1 : RegIdx) (imm : Word)
  | xori (rd rs1 : RegIdx) (imm : Word)
  | ori (rd rs1 : RegIdx) (imm : Word)
  | andi (rd rs1 : RegIdx) (imm : Word)
  -- shift-immediate form (R109)
  | slli (rd rs1 : RegIdx) (shamt : BitVec 5)
  | srli (rd rs1 : RegIdx) (shamt : BitVec 5)
  | srai (rd rs1 : RegIdx) (shamt : BitVec 5)
  -- R format (R102)
  | add (rd rs1 rs2 : RegIdx)
  | sub (rd rs1 rs2 : RegIdx)
  | sll (rd rs1 rs2 : RegIdx)
  | slt (rd rs1 rs2 : RegIdx)
  | sltu (rd rs1 rs2 : RegIdx)
  | xor (rd rs1 rs2 : RegIdx)
  | srl (rd rs1 rs2 : RegIdx)
  | sra (rd rs1 rs2 : RegIdx)
  | or (rd rs1 rs2 : RegIdx)
  | and (rd rs1 rs2 : RegIdx)
  -- J format (R107) and JALR (R117)
  | jal (rd : RegIdx) (imm : Word)
  | jalr (rd rs1 : RegIdx) (imm : Word)
  -- B format (R105)
  | beq (rs1 rs2 : RegIdx) (imm : Word)
  | bne (rs1 rs2 : RegIdx) (imm : Word)
  | blt (rs1 rs2 : RegIdx) (imm : Word)
  | bge (rs1 rs2 : RegIdx) (imm : Word)
  | bltu (rs1 rs2 : RegIdx) (imm : Word)
  | bgeu (rs1 rs2 : RegIdx) (imm : Word)
  -- I format loads (R119)
  | lb (rd rs1 : RegIdx) (imm : Word)
  | lh (rd rs1 : RegIdx) (imm : Word)
  | lw (rd rs1 : RegIdx) (imm : Word)
  | lbu (rd rs1 : RegIdx) (imm : Word)
  | lhu (rd rs1 : RegIdx) (imm : Word)
  -- S format (R104): rs1 is the base, rs2 the data
  | sb (rs1 rs2 : RegIdx) (imm : Word)
  | sh (rs1 rs2 : RegIdx) (imm : Word)
  | sw (rs1 rs2 : RegIdx) (imm : Word)
  -- Fence format (R108, R124)
  | fence (pred succ : BitVec 4)
  | fenceI
  -- SYSTEM (R111, R125)
  | ecall
  | ebreak
  -- CSR form (R110)
  | csrrw (rd rs1 : RegIdx) (csr : BitVec 12)
  | csrrs (rd rs1 : RegIdx) (csr : BitVec 12)
  | csrrc (rd rs1 : RegIdx) (csr : BitVec 12)
  | csrrwi (rd : RegIdx) (uimm : BitVec 5) (csr : BitVec 12)
  | csrrsi (rd : RegIdx) (uimm : BitVec 5) (csr : BitVec 12)
  | csrrci (rd : RegIdx) (uimm : BitVec 5) (csr : BitVec 12)
  deriving DecidableEq, Repr

end Sys2Proof
end

