-- ==== Sys2Proof/WellFormed.lean ====
section
/-! DEFINITION. The immediate ranges of R131: which operand values an instruction word can carry. Fields whose
type already has the field's width (registers, shamt, csr, uimm, pred, succ) need no check. -/

namespace Sys2Proof

/-- A 12-bit sign-extended immediate, -2048..2047 (I and S formats, R103, R104). -/
def immIOk (imm : Word) : Bool := decide (-2048 ≤ imm.toInt ∧ imm.toInt ≤ 2047)

/-- A 13-bit sign-extended even immediate, -4096..4094 (B format, R105). -/
def immBOk (imm : Word) : Bool := decide (-4096 ≤ imm.toInt ∧ imm.toInt ≤ 4094 ∧ imm.toInt % 2 = 0)

/-- An upper immediate, its low 12 bits zero (U format, R106). -/
def immUOk (imm : Word) : Bool := decide (imm.toNat % 4096 = 0)

/-- A 21-bit sign-extended even immediate, -1048576..1048574 (J format, R107). -/
def immJOk (imm : Word) : Bool := decide (-1048576 ≤ imm.toInt ∧ imm.toInt ≤ 1048574 ∧ imm.toInt % 2 = 0)

/-- The instruction's operands are in the ranges of R131. -/
def Instr.wellFormed : Instr → Bool
  | .lui _ imm | .auipc _ imm => immUOk imm
  | .addi _ _ imm | .slti _ _ imm | .sltiu _ _ imm | .xori _ _ imm | .ori _ _ imm | .andi _ _ imm => immIOk imm
  | .slli _ _ _ | .srli _ _ _ | .srai _ _ _ => true
  | .add _ _ _ | .sub _ _ _ | .sll _ _ _ | .slt _ _ _ | .sltu _ _ _ => true
  | .xor _ _ _ | .srl _ _ _ | .sra _ _ _ | .or _ _ _ | .and _ _ _ => true
  | .jal _ imm => immJOk imm
  | .jalr _ _ imm => immIOk imm
  | .beq _ _ imm | .bne _ _ imm | .blt _ _ imm | .bge _ _ imm | .bltu _ _ imm | .bgeu _ _ imm => immBOk imm
  | .lb _ _ imm | .lh _ _ imm | .lw _ _ imm | .lbu _ _ imm | .lhu _ _ imm => immIOk imm
  | .sb _ _ imm | .sh _ _ imm | .sw _ _ imm => immIOk imm
  | .fence _ _ | .fenceI | .ecall | .ebreak => true
  | .csrrw _ _ _ | .csrrs _ _ _ | .csrrc _ _ _ => true
  | .csrrwi _ _ _ | .csrrsi _ _ _ | .csrrci _ _ _ => true

end Sys2Proof
end

