-- ==== Sys2Proof/Decode.lean ====
section
/-! DEFINITION. The instruction_decoder (30_encoding.md): field extraction, the decode algorithm R115-R125 with its
faults by name, and the encoder written from the same tables. -/

namespace Sys2Proof

/-- The format a `FormatError` names (R126). -/
inductive Fmt where
  | r | i | s | b | fence
  deriving DecidableEq, Repr

/-- The decode faults of R126; each carries the word and its opcode field. -/
inductive DecodeError where
  /-- The opcode is none of the eleven of R112. Raised by `decode` (R115); safe: the spec's own fault. -/
  | invalidInstruction (word : Word) (opcode : BitVec 7)
  /-- A MISC-MEM word fails the Fence check. Raised by `decode` (R124); safe: the spec's own fault. -/
  | invalidFence (word : Word) (opcode : BitVec 7)
  /-- A recognized opcode, no matching funct3/funct7. Raised by `decode` (R117-R125); safe: the spec's own fault. -/
  | formatError (fmt : Fmt) (word : Word) (opcode : BitVec 7)
  deriving DecidableEq, Repr

/-! Fields (R101). -/

/-- Bits 6:0. -/
def opcodeOf (w : Word) : BitVec 7 := w.extractLsb' 0 7
/-- Bits 11:7. -/
def rdOf (w : Word) : RegIdx := w.extractLsb' 7 5
/-- Bits 14:12. -/
def funct3Of (w : Word) : BitVec 3 := w.extractLsb' 12 3
/-- Bits 19:15. -/
def rs1Of (w : Word) : RegIdx := w.extractLsb' 15 5
/-- Bits 24:20. -/
def rs2Of (w : Word) : RegIdx := w.extractLsb' 20 5
/-- Bits 31:25. -/
def funct7Of (w : Word) : BitVec 7 := w.extractLsb' 25 7
/-- Bits 31:20, the CSR number (R110). -/
def csrOf (w : Word) : BitVec 12 := w.extractLsb' 20 12
/-- Bits 27:24 (R108). -/
def predOf (w : Word) : BitVec 4 := w.extractLsb' 24 4
/-- Bits 23:20 (R108). -/
def succOf (w : Word) : BitVec 4 := w.extractLsb' 20 4
/-- Bits 31:28, the reserved field of the Fence format (R108). -/
def fenceRsvdOf (w : Word) : BitVec 4 := w.extractLsb' 28 4

/-! Immediates (R103-R107). -/

/-- R103. -/
def immIOf (w : Word) : Word := (w.extractLsb' 20 12).signExtend 32

/-- R104. -/
def immSOf (w : Word) : Word :=
  let imm : BitVec 12 := w.extractLsb' 25 7 ++ w.extractLsb' 7 5
  imm.signExtend 32

/-- R105. -/
def immBOf (w : Word) : Word :=
  let imm : BitVec 13 := w.extractLsb' 31 1 ++ w.extractLsb' 7 1 ++ w.extractLsb' 25 6 ++ w.extractLsb' 8 4 ++ 0#1
  imm.signExtend 32

/-- R106. -/
def immUOf (w : Word) : Word := w.extractLsb' 12 20 ++ 0#12

/-- R107. -/
def immJOf (w : Word) : Word :=
  let imm : BitVec 21 := w.extractLsb' 31 1 ++ w.extractLsb' 12 8 ++ w.extractLsb' 20 1 ++ w.extractLsb' 21 10 ++ 0#1
  imm.signExtend 32

/-- The format error of a word (R126). -/
def formatErr (f : Fmt) (w : Word) : Except DecodeError Instr := .error (.formatError f w (opcodeOf w))

/-- Opcode 1100111 (R117). -/
def decodeJalr (w : Word) : Except DecodeError Instr :=
  match funct3Of w with
  | 0b000#3 => .ok (.jalr (rdOf w) (rs1Of w) (immIOf w))
  | _ => formatErr .i w

/-- Opcode 1100011 (R118). -/
def decodeBranch (w : Word) : Except DecodeError Instr :=
  match funct3Of w with
  | 0b000#3 => .ok (.beq (rs1Of w) (rs2Of w) (immBOf w))
  | 0b001#3 => .ok (.bne (rs1Of w) (rs2Of w) (immBOf w))
  | 0b100#3 => .ok (.blt (rs1Of w) (rs2Of w) (immBOf w))
  | 0b101#3 => .ok (.bge (rs1Of w) (rs2Of w) (immBOf w))
  | 0b110#3 => .ok (.bltu (rs1Of w) (rs2Of w) (immBOf w))
  | 0b111#3 => .ok (.bgeu (rs1Of w) (rs2Of w) (immBOf w))
  | _ => formatErr .b w

/-- Opcode 0000011 (R119). -/
def decodeLoad (w : Word) : Except DecodeError Instr :=
  match funct3Of w with
  | 0b000#3 => .ok (.lb (rdOf w) (rs1Of w) (immIOf w))
  | 0b001#3 => .ok (.lh (rdOf w) (rs1Of w) (immIOf w))
  | 0b010#3 => .ok (.lw (rdOf w) (rs1Of w) (immIOf w))
  | 0b100#3 => .ok (.lbu (rdOf w) (rs1Of w) (immIOf w))
  | 0b101#3 => .ok (.lhu (rdOf w) (rs1Of w) (immIOf w))
  | _ => formatErr .i w

/-- Opcode 0100011 (R120). -/
def decodeStore (w : Word) : Except DecodeError Instr :=
  match funct3Of w with
  | 0b000#3 => .ok (.sb (rs1Of w) (rs2Of w) (immSOf w))
  | 0b001#3 => .ok (.sh (rs1Of w) (rs2Of w) (immSOf w))
  | 0b010#3 => .ok (.sw (rs1Of w) (rs2Of w) (immSOf w))
  | _ => formatErr .s w

/-- Opcode 0010011 (R121), with the shift-immediate form on funct3 001 and 101 (R122). -/
def decodeOpImm (w : Word) : Except DecodeError Instr :=
  match funct3Of w with
  | 0b000#3 => .ok (.addi (rdOf w) (rs1Of w) (immIOf w))
  | 0b010#3 => .ok (.slti (rdOf w) (rs1Of w) (immIOf w))
  | 0b011#3 => .ok (.sltiu (rdOf w) (rs1Of w) (immIOf w))
  | 0b100#3 => .ok (.xori (rdOf w) (rs1Of w) (immIOf w))
  | 0b110#3 => .ok (.ori (rdOf w) (rs1Of w) (immIOf w))
  | 0b111#3 => .ok (.andi (rdOf w) (rs1Of w) (immIOf w))
  | 0b001#3 =>
    match funct7Of w with
    | 0b0000000#7 => .ok (.slli (rdOf w) (rs1Of w) (rs2Of w))
    | _ => formatErr .r w
  | _ => -- 101, the one value left
    match funct7Of w with
    | 0b0000000#7 => .ok (.srli (rdOf w) (rs1Of w) (rs2Of w))
    | 0b0100000#7 => .ok (.srai (rdOf w) (rs1Of w) (rs2Of w))
    | _ => formatErr .r w

/-- Opcode 0110011 (R123). -/
def decodeOp (w : Word) : Except DecodeError Instr :=
  match funct7Of w, funct3Of w with
  | 0b0000000#7, 0b000#3 => .ok (.add (rdOf w) (rs1Of w) (rs2Of w))
  | 0b0100000#7, 0b000#3 => .ok (.sub (rdOf w) (rs1Of w) (rs2Of w))
  | 0b0000000#7, 0b001#3 => .ok (.sll (rdOf w) (rs1Of w) (rs2Of w))
  | 0b0000000#7, 0b010#3 => .ok (.slt (rdOf w) (rs1Of w) (rs2Of w))
  | 0b0000000#7, 0b011#3 => .ok (.sltu (rdOf w) (rs1Of w) (rs2Of w))
  | 0b0000000#7, 0b100#3 => .ok (.xor (rdOf w) (rs1Of w) (rs2Of w))
  | 0b0000000#7, 0b101#3 => .ok (.srl (rdOf w) (rs1Of w) (rs2Of w))
  | 0b0100000#7, 0b101#3 => .ok (.sra (rdOf w) (rs1Of w) (rs2Of w))
  | 0b0000000#7, 0b110#3 => .ok (.or (rdOf w) (rs1Of w) (rs2Of w))
  | 0b0000000#7, 0b111#3 => .ok (.and (rdOf w) (rs1Of w) (rs2Of w))
  | _, _ => formatErr .r w

/-- The Fence check of R108: rd = 0, rs1 = 0 and bits 31:28 = 0. -/
def fenceCheck (w : Word) : Bool := decide (rdOf w = 0#5 ∧ rs1Of w = 0#5 ∧ fenceRsvdOf w = 0#4)

/-- Opcode 0001111 (R124): the Fence check first, then funct3. -/
def decodeMiscMem (w : Word) : Except DecodeError Instr :=
  if fenceCheck w then
    match funct3Of w with
    | 0b000#3 => .ok (.fence (predOf w) (succOf w))
    | 0b001#3 => .ok .fenceI
    | _ => formatErr .fence w
  else .error (.invalidFence w (opcodeOf w))

/-- Opcode 1110011 (R125). -/
def decodeSystem (w : Word) : Except DecodeError Instr :=
  match funct3Of w with
  | 0b000#3 =>
    if w = 0x00000073#32 then .ok .ecall
    else if w = 0x00100073#32 then .ok .ebreak
    else formatErr .i w
  | 0b001#3 => .ok (.csrrw (rdOf w) (rs1Of w) (csrOf w))
  | 0b010#3 => .ok (.csrrs (rdOf w) (rs1Of w) (csrOf w))
  | 0b011#3 => .ok (.csrrc (rdOf w) (rs1Of w) (csrOf w))
  | 0b101#3 => .ok (.csrrwi (rdOf w) (rs1Of w) (csrOf w))
  | 0b110#3 => .ok (.csrrsi (rdOf w) (rs1Of w) (csrOf w))
  | 0b111#3 => .ok (.csrrci (rdOf w) (rs1Of w) (csrOf w))
  | _ => -- 100
    formatErr .i w

/-- The decoder (R113): total on every word; the opcode selects the group (R112, R115, R116). -/
def decode (w : Word) : Except DecodeError Instr :=
  match opcodeOf w with
  | 0b0110111#7 => .ok (.lui (rdOf w) (immUOf w))
  | 0b0010111#7 => .ok (.auipc (rdOf w) (immUOf w))
  | 0b1101111#7 => .ok (.jal (rdOf w) (immJOf w))
  | 0b1100111#7 => decodeJalr w
  | 0b1100011#7 => decodeBranch w
  | 0b0000011#7 => decodeLoad w
  | 0b0100011#7 => decodeStore w
  | 0b0010011#7 => decodeOpImm w
  | 0b0110011#7 => decodeOp w
  | 0b0001111#7 => decodeMiscMem w
  | 0b1110011#7 => decodeSystem w
  | _ => .error (.invalidInstruction w (opcodeOf w))

/-! Bytes (R100): the byte at pc is bits 7:0 of the word, the byte at pc + 3 is bits 31:24. -/

/-- The little-endian word of four bytes, lowest address first (R62, R100). -/
def wordOfBytes (b0 b1 b2 b3 : Byte) : Word := b3 ++ b2 ++ b1 ++ b0

/-- Byte `k` of a word, counted from the low end (R60). -/
def byteOfWord (w : Word) (k : Nat) : Byte := w.extractLsb' (8 * k) 8

/-- Decoding the four bytes at pc..pc + 3, lowest address first. -/
def decodeBytes (b0 b1 b2 b3 : Byte) : Except DecodeError Instr := decode (wordOfBytes b0 b1 b2 b3)

/-- The 32-bit word whose low `nbits` bits are `w`'s and whose other bits are 0. -/
def tableWord (nbits w : Nat) : Word := BitVec.ofNat 32 (w % 2 ^ nbits)

/-- The instruction read from the word of an opcode-table row, laid out as the hardware stores it. -/
def decodeTableWord (nbits w : Nat) : Option Instr :=
  let v := tableWord nbits w
  (decodeBytes (byteOfWord v 0) (byteOfWord v 1) (byteOfWord v 2) (byteOfWord v 3)).toOption

/-! The encoder. -/

/-- R format (R102). -/
def encR (f7 : BitVec 7) (rs2 rs1 : RegIdx) (f3 : BitVec 3) (rd : RegIdx) (op : BitVec 7) : Word :=
  f7 ++ rs2 ++ rs1 ++ f3 ++ rd ++ op

/-- A word of the I layout with the 12-bit field given (R103, R110). -/
def encI (field : BitVec 12) (rs1 : RegIdx) (f3 : BitVec 3) (rd : RegIdx) (op : BitVec 7) : Word :=
  field ++ rs1 ++ f3 ++ rd ++ op

/-- The low 12 bits of an immediate (R103). -/
def imm12 (imm : Word) : BitVec 12 := imm.extractLsb' 0 12

/-- S format (R104). -/
def encS (imm : Word) (rs2 rs1 : RegIdx) (f3 : BitVec 3) (op : BitVec 7) : Word :=
  imm.extractLsb' 5 7 ++ rs2 ++ rs1 ++ f3 ++ imm.extractLsb' 0 5 ++ op

/-- B format (R105). -/
def encB (imm : Word) (rs2 rs1 : RegIdx) (f3 : BitVec 3) (op : BitVec 7) : Word :=
  imm.extractLsb' 12 1 ++ imm.extractLsb' 5 6 ++ rs2 ++ rs1 ++ f3 ++ imm.extractLsb' 1 4 ++ imm.extractLsb' 11 1 ++ op

/-- U format (R106). -/
def encU (imm : Word) (rd : RegIdx) (op : BitVec 7) : Word := imm.extractLsb' 12 20 ++ rd ++ op

/-- J format (R107). -/
def encJ (imm : Word) (rd : RegIdx) (op : BitVec 7) : Word :=
  imm.extractLsb' 20 1 ++ imm.extractLsb' 1 10 ++ imm.extractLsb' 11 1 ++ imm.extractLsb' 12 8 ++ rd ++ op

/-- Fence format (R108). -/
def encFence (pred succ : BitVec 4) (f3 : BitVec 3) (op : BitVec 7) : Word :=
  0#4 ++ pred ++ succ ++ 0#5 ++ f3 ++ 0#5 ++ op

/-- The opcode of an instruction (R112). -/
def Instr.opcode : Instr → BitVec 7
  | .lui _ _ => 0b0110111#7
  | .auipc _ _ => 0b0010111#7
  | .addi _ _ _ | .slti _ _ _ | .sltiu _ _ _ | .xori _ _ _ | .ori _ _ _ | .andi _ _ _ => 0b0010011#7
  | .slli _ _ _ | .srli _ _ _ | .srai _ _ _ => 0b0010011#7
  | .add _ _ _ | .sub _ _ _ | .sll _ _ _ | .slt _ _ _ | .sltu _ _ _ => 0b0110011#7
  | .xor _ _ _ | .srl _ _ _ | .sra _ _ _ | .or _ _ _ | .and _ _ _ => 0b0110011#7
  | .jal _ _ => 0b1101111#7
  | .jalr _ _ _ => 0b1100111#7
  | .beq _ _ _ | .bne _ _ _ | .blt _ _ _ | .bge _ _ _ | .bltu _ _ _ | .bgeu _ _ _ => 0b1100011#7
  | .lb _ _ _ | .lh _ _ _ | .lw _ _ _ | .lbu _ _ _ | .lhu _ _ _ => 0b0000011#7
  | .sb _ _ _ | .sh _ _ _ | .sw _ _ _ => 0b0100011#7
  | .fence _ _ | .fenceI => 0b0001111#7
  | .ecall | .ebreak => 0b1110011#7
  | .csrrw _ _ _ | .csrrs _ _ _ | .csrrc _ _ _ => 0b1110011#7
  | .csrrwi _ _ _ | .csrrsi _ _ _ | .csrrci _ _ _ => 0b1110011#7

/-- The word of an instruction; for FENCE.I, whose bits 27:20 are ignored (R124), the word 0x0000100F. -/
def encode (i : Instr) : Word :=
  let op := i.opcode
  match i with
  | .lui rd imm => encU imm rd op
  | .auipc rd imm => encU imm rd op
  | .addi rd rs1 imm => encI (imm12 imm) rs1 0b000#3 rd op
  | .slti rd rs1 imm => encI (imm12 imm) rs1 0b010#3 rd op
  | .sltiu rd rs1 imm => encI (imm12 imm) rs1 0b011#3 rd op
  | .xori rd rs1 imm => encI (imm12 imm) rs1 0b100#3 rd op
  | .ori rd rs1 imm => encI (imm12 imm) rs1 0b110#3 rd op
  | .andi rd rs1 imm => encI (imm12 imm) rs1 0b111#3 rd op
  | .slli rd rs1 shamt => encR 0b0000000#7 shamt rs1 0b001#3 rd op
  | .srli rd rs1 shamt => encR 0b0000000#7 shamt rs1 0b101#3 rd op
  | .srai rd rs1 shamt => encR 0b0100000#7 shamt rs1 0b101#3 rd op
  | .add rd rs1 rs2 => encR 0b0000000#7 rs2 rs1 0b000#3 rd op
  | .sub rd rs1 rs2 => encR 0b0100000#7 rs2 rs1 0b000#3 rd op
  | .sll rd rs1 rs2 => encR 0b0000000#7 rs2 rs1 0b001#3 rd op
  | .slt rd rs1 rs2 => encR 0b0000000#7 rs2 rs1 0b010#3 rd op
  | .sltu rd rs1 rs2 => encR 0b0000000#7 rs2 rs1 0b011#3 rd op
  | .xor rd rs1 rs2 => encR 0b0000000#7 rs2 rs1 0b100#3 rd op
  | .srl rd rs1 rs2 => encR 0b0000000#7 rs2 rs1 0b101#3 rd op
  | .sra rd rs1 rs2 => encR 0b0100000#7 rs2 rs1 0b101#3 rd op
  | .or rd rs1 rs2 => encR 0b0000000#7 rs2 rs1 0b110#3 rd op
  | .and rd rs1 rs2 => encR 0b0000000#7 rs2 rs1 0b111#3 rd op
  | .jal rd imm => encJ imm rd op
  | .jalr rd rs1 imm => encI (imm12 imm) rs1 0b000#3 rd op
  | .beq rs1 rs2 imm => encB imm rs2 rs1 0b000#3 op
  | .bne rs1 rs2 imm => encB imm rs2 rs1 0b001#3 op
  | .blt rs1 rs2 imm => encB imm rs2 rs1 0b100#3 op
  | .bge rs1 rs2 imm => encB imm rs2 rs1 0b101#3 op
  | .bltu rs1 rs2 imm => encB imm rs2 rs1 0b110#3 op
  | .bgeu rs1 rs2 imm => encB imm rs2 rs1 0b111#3 op
  | .lb rd rs1 imm => encI (imm12 imm) rs1 0b000#3 rd op
  | .lh rd rs1 imm => encI (imm12 imm) rs1 0b001#3 rd op
  | .lw rd rs1 imm => encI (imm12 imm) rs1 0b010#3 rd op
  | .lbu rd rs1 imm => encI (imm12 imm) rs1 0b100#3 rd op
  | .lhu rd rs1 imm => encI (imm12 imm) rs1 0b101#3 rd op
  | .sb rs1 rs2 imm => encS imm rs2 rs1 0b000#3 op
  | .sh rs1 rs2 imm => encS imm rs2 rs1 0b001#3 op
  | .sw rs1 rs2 imm => encS imm rs2 rs1 0b010#3 op
  | .fence pred succ => encFence pred succ 0b000#3 op
  | .fenceI => encFence 0#4 0#4 0b001#3 op
  | .ecall => encI 0#12 0#5 0b000#3 0#5 op
  | .ebreak => encI 1#12 0#5 0b000#3 0#5 op
  | .csrrw rd rs1 csr => encI csr rs1 0b001#3 rd op
  | .csrrs rd rs1 csr => encI csr rs1 0b010#3 rd op
  | .csrrc rd rs1 csr => encI csr rs1 0b011#3 rd op
  | .csrrwi rd uimm csr => encI csr uimm 0b101#3 rd op
  | .csrrsi rd uimm csr => encI csr uimm 0b110#3 rd op
  | .csrrci rd uimm csr => encI csr uimm 0b111#3 rd op

end Sys2Proof
end

