-- ==== Sys2Proof/Machine/State.lean ====
section
/-! DEFINITION. The architectural state of 10_state.md, the faults of R300, the refusals, and the state after reset (R39).
State is plain data. -/

namespace Sys2Proof.Machine

open Sys2Proof

/-- A memory fault (R77). -/
inductive MemoryError where
  /-- An access outside all segments, with the lowest failing byte's address. Raised by every access
  to an unmapped byte (R56, R59, R60); safe: the spec's own fault. -/
  | unmappedRegion (address : Word)
  /-- A setup request that would overlap. Raised by `State.addSegment` only, never by a step (R301); safe. -/
  | alreadyMappedRegion
  deriving DecidableEq, Repr

/-- A fault of the execute stage (R303). -/
inductive ExecuteError where
  /-- Internal dispatch mismatch: no step raises it, since dispatch is exhaustive (R155); safe (log 8). -/
  | invalidExecutionInstruction
  /-- Raised by JAL and JALR, with the jump target (R241, R242); safe: the spec's own fault. -/
  | misalignedAddress (target : Word)
  /-- Raised by a load or a store (R261, R262); safe: the spec's own fault. -/
  | memory (e : MemoryError)
  deriving DecidableEq, Repr

/-- Every fault of a step, the spec's CpuError (R300). A faulting step changes nothing (R160). -/
inductive Fault where
  /-- A memory fault of the fetch, raised by `step` (R153); of a host request, raised by `State.addSegment`
  and `State.hostWrite` (R52, R57); safe: the spec's own fault. -/
  | memory (e : MemoryError)
  /-- Raised by `step` when the word does not decode (R154); safe: the spec's own fault. -/
  | decode (e : DecodeError)
  /-- Raised by the meanings of JAL, JALR, the loads and the stores (R303); safe: the spec's own fault. -/
  | execute (e : ExecuteError)
  deriving DecidableEq, Repr

/-- Requests the model refuses. No instruction is refused. -/
inductive Refusal where
  /-- An instruction without a meaning in this model; no arm raises it. Safe. -/
  | notModelled (mnemonic : String)
  /-- A segment of size 0 or ending past 2^32, raised by `State.addSegment` (R53, D10); safe. -/
  | invalidSegment
  /-- `add_segment` after the first step, raised by `State.addSegment` (R345, D22); safe. -/
  | segmentAfterStart
  /-- A launch with overlapping segments, raised by `Launch.state` (R343); safe. -/
  | launchOverlap
  /-- A launch byte at an unmapped address, raised by `Launch.state` (R343, D19); safe. -/
  | launchByteUnmapped
  deriving DecidableEq, Repr

/-- Why a run halted (R33). -/
inductive HaltReason where
  | ecall
  | ebreak
  deriving DecidableEq, Repr

/-- The sequencer's run-state (R33). -/
inductive RunState where
  | running
  | halted (reason : HaltReason)
  | faulted (error : Fault)
  deriving DecidableEq, Repr

/-- A mapped range `[base, base + size)` (R34). -/
structure Segment where
  base : Word
  size : Nat
  deriving DecidableEq, Repr

/-- The segment map (R34): the ranges in rising order, and the nonzero data bytes by address in rising order.
A mapped byte that is not listed is 0x00 (R51). -/
structure Memory where
  segs : List Segment
  cells : List Host.Cell
  deriving DecidableEq, Repr

/-- The state of the block (10_state.md). -/
structure State where
  /-- x1..x31; x0 is not stored (R20). -/
  regs : Vector Word 31
  /-- The program counter (R28). -/
  pc : Word
  /-- The memory_controller's segment map (R34). -/
  mem : Memory
  /-- The run-state (R33). -/
  run : RunState
  /-- The parameters of this instance (R11, log 3). -/
  params : Params
  /-- Whether a step has been taken: `add_segment` is refused after it (R345, log 4). -/
  started : Bool
  deriving DecidableEq, Repr

/-- Construction, `new` (R340, R341), with the parameters of R11. -/
def State.new (p : Params) : State :=
  { regs := Vector.replicate 31 0#32
    pc := 0#32
    mem := ⟨[], []⟩
    run := .running
    params := p
    started := false }

/-- The state after reset (R39): construction with the default parameters. -/
def State.reset : State := State.new Params.default

end Sys2Proof.Machine
end

