-- ==== Sys2Proof/Machine/Ops.lean ====
section
/-! DEFINITION. The named operations over registers, pc and memory: the register_file ports (R21, R22), the
program_counter's operations (R30), the memory_controller (R55-R61), and what a halt and a fault do to the run-state. -/

namespace Sys2Proof.Machine

open Sys2Proof

/-! ## register_file -/

/-- Where register `i` is stored, for `i` other than 0. -/
theorem regSlot_lt {i : RegIdx} (h : i ≠ 0#5) : i.toNat - 1 < 31 := by
  have : i.toNat ≠ 0 := fun e => h (BitVec.eq_of_toNat_eq e)
  omega

/-- The read port: 0 for x0, else the stored value (R21). -/
def State.reg (s : State) (i : RegIdx) : Word :=
  if h : i = 0#5 then 0#32 else s.regs[i.toNat - 1]'(regSlot_lt h)

/-- The write port: nothing for x0, else store (R22). -/
def State.setReg (s : State) (i : RegIdx) (v : Word) : State :=
  if h : i = 0#5 then s else { s with regs := s.regs.set (i.toNat - 1) v (regSlot_lt h) }

/-! ## program_counter -/

/-- `set_pc` (R30). -/
def State.setPc (s : State) (v : Word) : State := { s with pc := v }

/-- `increment_pc` (R30, R31). -/
def State.incrementPc (s : State) : State := s.setPc (s.pc + 4#32)

/-- `add_to_pc` (R30, R31): the displacement is a sign-extended 32-bit value. -/
def State.addToPc (s : State) (d : Word) : State := s.setPc (s.pc + d)

/-! ## Halts and faults -/

/-- What ECALL and EBREAK leave beside the pc: the status that halts `run()` (R282, R283, R164). -/
def State.halt (s : State) (r : HaltReason) : State := { s with run := .halted r }

/-- Taking a fault: the run-state becomes `Faulted(e)` and nothing else changes (R160, R164, R308, R309).
There is no return from it (R311). The run entry points use it; a step itself answers the fault. -/
def State.takeFault (s : State) (e : Fault) : State := { s with run := .faulted e, started := true }

/-- A fault of the execute stage (R303). -/
def raise (e : ExecuteError) : Host.Outcome State Fault Refusal := .fault (.execute e)

/-- What a step does before its instruction executes: it steps whatever the run-state is, and its
status is Continue unless the instruction says otherwise (R165). -/
def State.beginStep (s : State) : State := { s with run := .running, started := true }

/-! ## memory_controller -/

/-- The access widths (R66). -/
inductive Width where
  | byte | half | word
  deriving DecidableEq, Repr

/-- The number of bytes of an access (R66). -/
def Width.bytes : Width → Nat
  | .byte => 1
  | .half => 2
  | .word => 4

/-- Whether a segment covers the integer address `a` (R55). -/
def Segment.covers (g : Segment) (a : Nat) : Bool := decide (g.base.toNat ≤ a ∧ a < g.base.toNat + g.size)

/-- Whether the byte at the integer address `a` can be accessed: below 2^32 (R58) and mapped (R55). -/
def Memory.mapped (m : Memory) (a : Nat) : Bool := decide (a < 2 ^ 32) && m.segs.any (fun g => g.covers a)

/-- The byte listed for an address, 0x00 where none is (R51). -/
def cellAt : List Host.Cell → Nat → Byte
  | [], _ => 0#8
  | (k, v) :: t, a => if k = a then v else cellAt t a

/-- The cells without address `a`. -/
def cellErase (l : List Host.Cell) (a : Nat) : List Host.Cell := l.filter (fun c => c.1 != a)

/-- A cell put in address order. -/
def cellInsert : List Host.Cell → Nat → Byte → List Host.Cell
  | [], a, v => [(a, v)]
  | c :: t, a, v => if a < c.1 then (a, v) :: c :: t else c :: cellInsert t a v

/-- The byte at `a` set to `v`; a zero byte is not listed. -/
def cellSet (l : List Host.Cell) (a : Nat) (v : Byte) : List Host.Cell :=
  if v = 0#8 then cellErase l a else cellInsert (cellErase l a) a v

/-- The data byte at `a` of the owning segment (R56). -/
def Memory.peek (m : Memory) (a : Nat) : Byte := cellAt m.cells a

/-- The data byte at `a` set if it is mapped, else no effect (R57, R61). -/
def Memory.poke (m : Memory) (a : Nat) (v : Byte) : Memory :=
  if m.mapped a then { m with cells := cellSet m.cells a v } else m

/-- The lowest of the `n` addresses from `a` on that is unmapped or passes 2^32 (R58-R60). -/
def Memory.firstUnmapped (m : Memory) (a : Nat) : Nat → Option Nat
  | 0 => none
  | n + 1 => if m.mapped a then m.firstUnmapped (a + 1) n else some a

/-- The fault of an access whose lowest failing byte is at the integer address `x`: modulo 2^32 (R58). -/
def unmappedAt (x : Nat) : MemoryError := .unmappedRegion (BitVec.ofNat 32 x)

/-- The bytes of an access, the low byte at the lowest address, zero-extended (R59). -/
def Memory.peekBytes (m : Memory) (a : Nat) (w : Width) : Word :=
  match w with
  | .byte => (m.peek a).setWidth 32
  | .half => (m.peek (a + 1) ++ m.peek a).setWidth 32
  | .word => m.peek (a + 3) ++ m.peek (a + 2) ++ m.peek (a + 1) ++ m.peek a

/-- The low bytes of `v` written in ascending order, each where it is mapped (R60, R61). -/
def Memory.pokeBytes (m : Memory) (a : Nat) (w : Width) (v : Word) : Memory :=
  match w with
  | .byte => m.poke a (byteOfWord v 0)
  | .half => (m.poke a (byteOfWord v 0)).poke (a + 1) (byteOfWord v 1)
  | .word =>
    (((m.poke a (byteOfWord v 0)).poke (a + 1) (byteOfWord v 1)).poke (a + 2) (byteOfWord v 2)).poke (a + 3)
      (byteOfWord v 3)

/-- `MemRead(a, n)` (R59). -/
def Memory.read (m : Memory) (a : Word) (w : Width) : Except MemoryError Word :=
  match m.firstUnmapped a.toNat w.bytes with
  | some x => .error (unmappedAt x)
  | none => .ok (m.peekBytes a.toNat w)

/-- `MemWrite(a, n, v)`: all or nothing under `Fault` (R60), the mapped bytes under `Discard` (R61). -/
def Memory.write (m : Memory) (mode : UnmappedWrite) (a : Word) (w : Width) (v : Word) : Except MemoryError Memory :=
  match mode, m.firstUnmapped a.toNat w.bytes with
  | .fault, some x => .error (unmappedAt x)
  | _, _ => .ok (m.pokeBytes a.toNat w v)

/-- `read_byte(a)` (R56). -/
def Memory.readByte (m : Memory) (a : Word) : Except MemoryError Byte :=
  if m.mapped a.toNat then .ok (m.peek a.toNat) else .error (.unmappedRegion a)

/-! ## The segment map -/

/-- Whether two ranges intersect, as integers (R52). -/
def Segment.intersects (g h : Segment) : Bool :=
  decide (g.base.toNat < h.base.toNat + h.size ∧ h.base.toNat < g.base.toNat + g.size)

/-- A range the host may declare (R53). -/
def Segment.valid (g : Segment) : Bool := decide (1 ≤ g.size ∧ g.base.toNat + g.size ≤ 2 ^ 32)

/-- A range put in address order. -/
def segInsert : List Segment → Segment → List Segment
  | [], g => [g]
  | h :: t, g => if g.base.toNat < h.base.toNat then g :: h :: t else h :: segInsert t g

/-- A segment added to the map; its bytes are 0x00, since none is listed (R51). -/
def Memory.addRange (m : Memory) (g : Segment) : Memory := { m with segs := segInsert m.segs g }

/-- The canonical form of a segment map: valid ranges in rising order that do not overlap (R34, R53), and
data bytes at rising mapped addresses, none of them the 0x00 that an unlisted byte reads as. -/
abbrev Memory.wf (m : Memory) : Prop :=
  m.segs.Pairwise (fun g h => g.base.toNat + g.size ≤ h.base.toNat) ∧
  (∀ g ∈ m.segs, g.valid = true) ∧
  m.cells.Pairwise (fun c d => c.1 < d.1) ∧
  (∀ c ∈ m.cells, c.2 ≠ 0#8 ∧ m.mapped c.1 = true)

end Sys2Proof.Machine
end

