-- ==== Sys2Proof/Machine/Flags.lean ====
section
/-! DEFINITION. The alu's comparator (R201 SLT, SLTU, EQ; R243). The block has no flags (R35): a comparison decides a
branch or becomes the word 1 or 0. -/

namespace Sys2Proof.Machine

open Sys2Proof

/-- a = b (BEQ, BNE). -/
def cmpEq (a b : Word) : Bool := decide (a = b)

/-- signed(a) < signed(b) (SLT, SLTI, BLT, BGE). -/
def cmpLtS (a b : Word) : Bool := decide (a.toInt < b.toInt)

/-- a < b unsigned (SLTU, SLTIU, BLTU, BGEU). -/
def cmpLtU (a b : Word) : Bool := decide (a.toNat < b.toNat)

/-- A comparison's word: 1 or 0 (R201). -/
def wordOfBool (c : Bool) : Word := if c then 1#32 else 0#32

end Sys2Proof.Machine
end

