-- ==== Sys2Proof/Machine/Alu.lean ====
section
/-! DEFINITION. The alu's operations (R201, R202): 32-bit, wrapping, never faulting (R200). -/

namespace Sys2Proof.Machine

open Sys2Proof

/-- (a + b) mod 2^32. -/
def aluAdd (a b : Word) : Word := a + b
/-- (a - b) mod 2^32. -/
def aluSub (a b : Word) : Word := a - b
/-- 1 if signed(a) < signed(b), else 0. -/
def aluSlt (a b : Word) : Word := wordOfBool (cmpLtS a b)
/-- 1 if a < b unsigned, else 0. -/
def aluSltu (a b : Word) : Word := wordOfBool (cmpLtU a b)
/-- Bitwise exclusive or. -/
def aluXor (a b : Word) : Word := a ^^^ b
/-- Bitwise or. -/
def aluOr (a b : Word) : Word := a ||| b
/-- Bitwise and. -/
def aluAnd (a b : Word) : Word := a &&& b

/-- The shift amount of a word, `b & 0x1F` (R202). -/
def shiftAmount (b : Word) : BitVec 5 := b.extractLsb' 0 5

/-- Left shift filling zeros (R201). -/
def aluSll (a : Word) (n : BitVec 5) : Word := a <<< n.toNat
/-- Right shift filling zeros (R201). -/
def aluSrl (a : Word) (n : BitVec 5) : Word := a >>> n.toNat
/-- Right shift filling copies of bit 31 (R201, R202). -/
def aluSra (a : Word) (n : BitVec 5) : Word := a.sshiftRight n.toNat

end Sys2Proof.Machine
end

