-- ==== Sys2Proof/Machine/Operands.lean ====
section
/-! DEFINITION. Operand forms shared by the instruction families: the effective address (R260), the extension of a loaded
value (R261), the base and target of JALR (R242), and the shared shapes of a step's effects. -/

namespace Sys2Proof.Machine

open Sys2Proof

/-- The effective address of a load or store, with wraparound (R260). -/
def State.effAddr (s : State) (rs1 : RegIdx) (imm : Word) : Word := aluAdd (s.reg rs1) imm

/-- How a load extends its value (R261). -/
inductive Extension where
  | signed | zero
  deriving DecidableEq, Repr

/-- The extension of an `n`-byte value held in the low bits of a word (R261). -/
def extendLoaded (w : Width) (e : Extension) (v : Word) : Word :=
  match e, w with
  | .signed, .byte => (v.extractLsb' 0 8).signExtend 32
  | .signed, .half => (v.extractLsb' 0 16).signExtend 32
  | .zero, .byte => (v.extractLsb' 0 8).setWidth 32
  | .zero, .half => (v.extractLsb' 0 16).setWidth 32
  | _, .word => v

/-- The base of JALR: x[rs1] as it was, or the link when the parameter says so (R242). -/
def State.jalrBase (s : State) (rd rs1 : RegIdx) : Word :=
  if rd = rs1 ∧ rd ≠ 0#5 ∧ s.params.jalrLinkFirst = true then s.pc + 4#32 else s.reg rs1

/-- The target of JALR, its low bit forced to 0 (R242). -/
def State.jalrTarget (s : State) (rd rs1 : RegIdx) (imm : Word) : Word :=
  aluAdd (s.jalrBase rd rs1) imm &&& 0xFFFFFFFE#32

/-- A result written to rd, then pc + 4: the shape of 41_integer_computational.md. -/
def State.retire (s : State) (rd : RegIdx) (v : Word) : Host.Outcome State Fault Refusal :=
  .next ((s.setReg rd v).incrementPc)

/-- The link pc + 4 written to rd, then the pc set to the target (R241, R242). -/
def State.jumpAndLink (s : State) (rd : RegIdx) (target : Word) : Host.Outcome State Fault Refusal :=
  .next ((s.setReg rd (s.pc + 4#32)).setPc target)

/-- The branch rule (R244). -/
def State.branch (s : State) (taken : Bool) (imm : Word) : Host.Outcome State Fault Refusal :=
  .next (if taken then s.addToPc imm else s.incrementPc)

/-- A load (R261). -/
def State.load (s : State) (w : Width) (e : Extension) (rd rs1 : RegIdx) (imm : Word) :
    Host.Outcome State Fault Refusal :=
  match s.mem.read (s.effAddr rs1 imm) w with
  | .error x => raise (.memory x)
  | .ok v => s.retire rd (extendLoaded w e v)

/-- A store (R262). -/
def State.store (s : State) (w : Width) (rs1 rs2 : RegIdx) (imm : Word) : Host.Outcome State Fault Refusal :=
  match s.mem.write s.params.unmappedWrite (s.effAddr rs1 imm) w (s.reg rs2) with
  | .error x => raise (.memory x)
  | .ok m => .next ({ s with mem := m } : State).incrementPc

/-- pc + 4 and nothing else: the placeholders of 44_system_placeholders.md. -/
def State.onlyAdvance (s : State) : Host.Outcome State Fault Refusal := .next s.incrementPc

/-- pc + 4 and the halting status (R282, R283). -/
def State.haltWith (s : State) (r : HaltReason) : Host.Outcome State Fault Refusal :=
  .next (s.incrementPc.halt r)

end Sys2Proof.Machine
end

