-- ==== Sys2Proof/Machine/Control.lean ====
section
/-! DEFINITION. The eight control-transfer instructions (42_control_transfer.md). -/

namespace Sys2Proof.Machine

open Sys2Proof

/-- JAL (R241): the check is on the immediate, before any change. -/
def execJal (rd : RegIdx) (imm : Word) (s : State) : Host.Outcome State Fault Refusal :=
  if imm.toNat % 4 ≠ 0 then raise (.misalignedAddress (s.pc + imm)) else s.jumpAndLink rd (s.pc + imm)

/-- JALR (R242): the check is on the target, before any change. -/
def execJalr (rd rs1 : RegIdx) (imm : Word) (s : State) : Host.Outcome State Fault Refusal :=
  if (s.jalrTarget rd rs1 imm).toNat % 4 ≠ 0 then raise (.misalignedAddress (s.jalrTarget rd rs1 imm))
  else s.jumpAndLink rd (s.jalrTarget rd rs1 imm)

/-- BEQ (R246). -/
def execBeq (rs1 rs2 : RegIdx) (imm : Word) (s : State) : Host.Outcome State Fault Refusal :=
  s.branch (cmpEq (s.reg rs1) (s.reg rs2)) imm

/-- BNE (R247). -/
def execBne (rs1 rs2 : RegIdx) (imm : Word) (s : State) : Host.Outcome State Fault Refusal :=
  s.branch (!cmpEq (s.reg rs1) (s.reg rs2)) imm

/-- BLT (R248). -/
def execBlt (rs1 rs2 : RegIdx) (imm : Word) (s : State) : Host.Outcome State Fault Refusal :=
  s.branch (cmpLtS (s.reg rs1) (s.reg rs2)) imm

/-- BGE (R249). -/
def execBge (rs1 rs2 : RegIdx) (imm : Word) (s : State) : Host.Outcome State Fault Refusal :=
  s.branch (!cmpLtS (s.reg rs1) (s.reg rs2)) imm

/-- BLTU (R250). -/
def execBltu (rs1 rs2 : RegIdx) (imm : Word) (s : State) : Host.Outcome State Fault Refusal :=
  s.branch (cmpLtU (s.reg rs1) (s.reg rs2)) imm

/-- BGEU (R251). -/
def execBgeu (rs1 rs2 : RegIdx) (imm : Word) (s : State) : Host.Outcome State Fault Refusal :=
  s.branch (!cmpLtU (s.reg rs1) (s.reg rs2)) imm

end Sys2Proof.Machine
end

