-- ==== Sys2Proof/Machine/Integer.lean ====
section
/-! DEFINITION. The 21 integer computational instructions (41_integer_computational.md). -/

namespace Sys2Proof.Machine

open Sys2Proof

/-- LUI (R203). -/
def execLui (rd : RegIdx) (imm : Word) (s : State) : Host.Outcome State Fault Refusal :=
  s.retire rd imm

/-- AUIPC (R204): the pc is the address of the instruction itself (R29). -/
def execAuipc (rd : RegIdx) (imm : Word) (s : State) : Host.Outcome State Fault Refusal :=
  s.retire rd (aluAdd s.pc imm)

/-- ADDI (R205). -/
def execAddi (rd rs1 : RegIdx) (imm : Word) (s : State) : Host.Outcome State Fault Refusal :=
  s.retire rd (aluAdd (s.reg rs1) imm)

/-- SLTI (R206). -/
def execSlti (rd rs1 : RegIdx) (imm : Word) (s : State) : Host.Outcome State Fault Refusal :=
  s.retire rd (aluSlt (s.reg rs1) imm)

/-- SLTIU (R207). -/
def execSltiu (rd rs1 : RegIdx) (imm : Word) (s : State) : Host.Outcome State Fault Refusal :=
  s.retire rd (aluSltu (s.reg rs1) imm)

/-- XORI (R208). -/
def execXori (rd rs1 : RegIdx) (imm : Word) (s : State) : Host.Outcome State Fault Refusal :=
  s.retire rd (aluXor (s.reg rs1) imm)

/-- ORI (R209). -/
def execOri (rd rs1 : RegIdx) (imm : Word) (s : State) : Host.Outcome State Fault Refusal :=
  s.retire rd (aluOr (s.reg rs1) imm)

/-- ANDI (R210). -/
def execAndi (rd rs1 : RegIdx) (imm : Word) (s : State) : Host.Outcome State Fault Refusal :=
  s.retire rd (aluAnd (s.reg rs1) imm)

/-- SLLI (R211). -/
def execSlli (rd rs1 : RegIdx) (shamt : BitVec 5) (s : State) : Host.Outcome State Fault Refusal :=
  s.retire rd (aluSll (s.reg rs1) shamt)

/-- SRLI (R212). -/
def execSrli (rd rs1 : RegIdx) (shamt : BitVec 5) (s : State) : Host.Outcome State Fault Refusal :=
  s.retire rd (aluSrl (s.reg rs1) shamt)

/-- SRAI (R213). -/
def execSrai (rd rs1 : RegIdx) (shamt : BitVec 5) (s : State) : Host.Outcome State Fault Refusal :=
  s.retire rd (aluSra (s.reg rs1) shamt)

/-- ADD (R214). -/
def execAdd (rd rs1 rs2 : RegIdx) (s : State) : Host.Outcome State Fault Refusal :=
  s.retire rd (aluAdd (s.reg rs1) (s.reg rs2))

/-- SUB (R215). -/
def execSub (rd rs1 rs2 : RegIdx) (s : State) : Host.Outcome State Fault Refusal :=
  s.retire rd (aluSub (s.reg rs1) (s.reg rs2))

/-- SLL (R216). -/
def execSll (rd rs1 rs2 : RegIdx) (s : State) : Host.Outcome State Fault Refusal :=
  s.retire rd (aluSll (s.reg rs1) (shiftAmount (s.reg rs2)))

/-- SLT (R217). -/
def execSlt (rd rs1 rs2 : RegIdx) (s : State) : Host.Outcome State Fault Refusal :=
  s.retire rd (aluSlt (s.reg rs1) (s.reg rs2))

/-- SLTU (R218). -/
def execSltu (rd rs1 rs2 : RegIdx) (s : State) : Host.Outcome State Fault Refusal :=
  s.retire rd (aluSltu (s.reg rs1) (s.reg rs2))

/-- XOR (R219). -/
def execXor (rd rs1 rs2 : RegIdx) (s : State) : Host.Outcome State Fault Refusal :=
  s.retire rd (aluXor (s.reg rs1) (s.reg rs2))

/-- SRL (R220). -/
def execSrl (rd rs1 rs2 : RegIdx) (s : State) : Host.Outcome State Fault Refusal :=
  s.retire rd (aluSrl (s.reg rs1) (shiftAmount (s.reg rs2)))

/-- SRA (R221). -/
def execSra (rd rs1 rs2 : RegIdx) (s : State) : Host.Outcome State Fault Refusal :=
  s.retire rd (aluSra (s.reg rs1) (shiftAmount (s.reg rs2)))

/-- OR (R222). -/
def execOr (rd rs1 rs2 : RegIdx) (s : State) : Host.Outcome State Fault Refusal :=
  s.retire rd (aluOr (s.reg rs1) (s.reg rs2))

/-- AND (R223). -/
def execAnd (rd rs1 rs2 : RegIdx) (s : State) : Host.Outcome State Fault Refusal :=
  s.retire rd (aluAnd (s.reg rs1) (s.reg rs2))

end Sys2Proof.Machine
end

