-- ==== Sys2Proof/Machine/LoadStore.lean ====
section
/-! DEFINITION. The eight load and store instructions (43_load_store.md). -/

namespace Sys2Proof.Machine

open Sys2Proof

/-- LB (R264). -/
def execLb (rd rs1 : RegIdx) (imm : Word) (s : State) : Host.Outcome State Fault Refusal :=
  s.load .byte .signed rd rs1 imm

/-- LH (R265). -/
def execLh (rd rs1 : RegIdx) (imm : Word) (s : State) : Host.Outcome State Fault Refusal :=
  s.load .half .signed rd rs1 imm

/-- LW (R266). -/
def execLw (rd rs1 : RegIdx) (imm : Word) (s : State) : Host.Outcome State Fault Refusal :=
  s.load .word .signed rd rs1 imm

/-- LBU (R267). -/
def execLbu (rd rs1 : RegIdx) (imm : Word) (s : State) : Host.Outcome State Fault Refusal :=
  s.load .byte .zero rd rs1 imm

/-- LHU (R268). -/
def execLhu (rd rs1 : RegIdx) (imm : Word) (s : State) : Host.Outcome State Fault Refusal :=
  s.load .half .zero rd rs1 imm

/-- SB (R269). -/
def execSb (rs1 rs2 : RegIdx) (imm : Word) (s : State) : Host.Outcome State Fault Refusal :=
  s.store .byte rs1 rs2 imm

/-- SH (R270). -/
def execSh (rs1 rs2 : RegIdx) (imm : Word) (s : State) : Host.Outcome State Fault Refusal :=
  s.store .half rs1 rs2 imm

/-- SW (R271). -/
def execSw (rs1 rs2 : RegIdx) (imm : Word) (s : State) : Host.Outcome State Fault Refusal :=
  s.store .word rs1 rs2 imm

end Sys2Proof.Machine
end

