-- ==== Sys2Proof/Machine/System.lean ====
section
/-! DEFINITION. The fences, halts and CSR placeholders (44_system_placeholders.md). -/

namespace Sys2Proof.Machine

open Sys2Proof

/-- FENCE (R280). -/
def execFence (_pred _succ : BitVec 4) (s : State) : Host.Outcome State Fault Refusal :=
  s.onlyAdvance

/-- FENCE.I (R281). -/
def execFenceI (s : State) : Host.Outcome State Fault Refusal :=
  s.onlyAdvance

/-- ECALL (R282). -/
def execEcall (s : State) : Host.Outcome State Fault Refusal :=
  s.haltWith .ecall

/-- EBREAK (R283). -/
def execEbreak (s : State) : Host.Outcome State Fault Refusal :=
  s.haltWith .ebreak

/-- CSRRW (R284): rd is not written. -/
def execCsrrw (_rd _rs1 : RegIdx) (_csr : BitVec 12) (s : State) : Host.Outcome State Fault Refusal :=
  s.onlyAdvance

/-- CSRRS (R285): rd is not written. -/
def execCsrrs (_rd _rs1 : RegIdx) (_csr : BitVec 12) (s : State) : Host.Outcome State Fault Refusal :=
  s.onlyAdvance

/-- CSRRC (R286): rd is not written. -/
def execCsrrc (_rd _rs1 : RegIdx) (_csr : BitVec 12) (s : State) : Host.Outcome State Fault Refusal :=
  s.onlyAdvance

/-- CSRRWI (R287): rd is not written. -/
def execCsrrwi (_rd : RegIdx) (_uimm : BitVec 5) (_csr : BitVec 12) (s : State) : Host.Outcome State Fault Refusal :=
  s.onlyAdvance

/-- CSRRSI (R288): rd is not written. -/
def execCsrrsi (_rd : RegIdx) (_uimm : BitVec 5) (_csr : BitVec 12) (s : State) : Host.Outcome State Fault Refusal :=
  s.onlyAdvance

/-- CSRRCI (R289): rd is not written. -/
def execCsrrci (_rd : RegIdx) (_uimm : BitVec 5) (_csr : BitVec 12) (s : State) : Host.Outcome State Fault Refusal :=
  s.onlyAdvance

end Sys2Proof.Machine
end

