-- ==== Sys2Proof/Machine/Fetch.lean ====
section
/-! DEFINITION. The fetch_unit (R151-R153), and placing one instruction word where it fetches. -/

namespace Sys2Proof.Machine

open Sys2Proof

/-- The instruction word at pc: `MemRead(pc, 4)`, with no alignment check (R151, R152). -/
def State.fetch (s : State) : Except MemoryError Word := s.mem.read s.pc .word

/-- The byte at `a` made mapped: as it is if it is mapped or passes 2^32, else with a segment of size 1 there. -/
def Memory.ensureMapped (m : Memory) (a : Nat) : Memory :=
  if m.mapped a || decide (2 ^ 32 ≤ a) then m else m.addRange ⟨BitVec.ofNat 32 a, 1⟩

/-- The word stored at pc..pc + 3, each of these bytes mapped first where it is not (log 6). -/
def State.placeWord (s : State) (w : Word) : State :=
  let a := s.pc.toNat
  let m := (((s.mem.ensureMapped a).ensureMapped (a + 1)).ensureMapped (a + 2)).ensureMapped (a + 3)
  { s with mem := m.pokeBytes a .word w }

end Sys2Proof.Machine
end

