-- ==== Sys2Proof/Machine/Step.lean ====
section
/-! DEFINITION. One step (R150): fetch, decode, execute, each only if the one before succeeded (R305). -/

namespace Sys2Proof.Machine

open Sys2Proof

/-- One step, whatever the run-state is: the body of `run()` and of `run_for_steps` (R150, R164, R165, log 2).
A fault answers the fault and commits nothing (R160, log 1). -/
def step (s : State) : Host.Outcome State Fault Refusal :=
  match s.fetch with
  | .error e => .fault (.memory e)
  | .ok w =>
    match decode w with
    | .error d => .fault (.decode d)
    | .ok i => exec i s.beginStep

/-- `s` with the instruction of an opcode-table row stored where `step` fetches its next one (log 6). -/
def State.withFetchWord (s : State) (nbits w : Nat) : State := s.placeWord (tableWord nbits w)

end Sys2Proof.Machine
end

