-- ==== Sys2Proof/Machine/HostOps.lean ====
section
/-! DEFINITION. The host's operations on the block (R344, R345): segments, memory, the launch record (R342, R343) and the
two run entry points (R164, R165). Register and pc access are `State.reg`, `State.setReg`, `State.pc`, `State.setPc`. -/

namespace Sys2Proof.Machine

open Sys2Proof

/-! ## Setup -/

/-- `add_segment(base, size)`: refused after the first step (R345) and for a range R53 excludes; the fault
`AlreadyMappedRegion` for an overlap (R52); else the zero-filled segment is mapped (R51). -/
def State.addSegment (s : State) (base : Word) (size : Nat) : Host.Outcome State Fault Refusal :=
  if s.started then .refused .segmentAfterStart
  else if !(Segment.mk base size).valid then .refused .invalidSegment
  else if s.mem.segs.any (fun g => g.intersects ⟨base, size⟩) then .fault (.memory .alreadyMappedRegion)
  else .next { s with mem := s.mem.addRange ⟨base, size⟩ }

/-- The host's `read_byte`, `read_halfword`, `read_word` (R56, R59). -/
def State.hostRead (s : State) (a : Word) (w : Width) : Except MemoryError Word := s.mem.read a w

/-- The host's `write_byte`, `write_halfword`, `write_word` (R57, R60, R61). -/
def State.hostWrite (s : State) (a : Word) (w : Width) (v : Word) : Host.Outcome State Fault Refusal :=
  match s.mem.write s.params.unmappedWrite a w v with
  | .error e => .fault (.memory e)
  | .ok m => .next { s with mem := m }

/-- The launch record (R342). -/
structure Launch where
  /-- Segment declarations (base, size), applied in order. -/
  segments : List (Word × Nat)
  /-- Byte writes (address, byte), applied in order; a later write of the same byte wins. -/
  bytes : List (Word × Byte)
  /-- x1..x31. -/
  regs : Vector Word 31
  /-- The entry point. -/
  pc0 : Word
  deriving DecidableEq, Repr

/-- The launch's segment declarations; an overlap makes the launch invalid (R343). -/
def State.launchSegments (s : State) : List (Word × Nat) → Host.Outcome State Fault Refusal
  | [] => .next s
  | (b, n) :: t =>
    match s.addSegment b n with
    | .next s' => s'.launchSegments t
    | .fault _ => .refused .launchOverlap
    | .refused r => .refused r

/-- The launch's byte writes; one outside every segment makes the launch invalid (R343). -/
def State.launchBytes (s : State) : List (Word × Byte) → Host.Outcome State Fault Refusal
  | [] => .next s
  | (a, v) :: t =>
    if s.mem.mapped a.toNat then ({ s with mem := s.mem.poke a.toNat v } : State).launchBytes t
    else .refused .launchByteUnmapped

/-- `LaunchState(launch)` (R342) for the parameters of the instance; an invalid launch is refused (R343). -/
def Launch.state (l : Launch) (p : Params) : Host.Outcome State Fault Refusal :=
  match (State.new p).launchSegments l.segments with
  | .fault e => .fault e
  | .refused r => .refused r
  | .next s =>
    match s.launchBytes l.bytes with
    | .fault e => .fault e
    | .refused r => .refused r
    | .next s' => .next { s' with regs := l.regs, pc := l.pc0, run := .running }

/-! ## Run entry points -/

/-- The outcome of a step (R159). -/
inductive StepOutcome where
  | continue
  | ecall
  | ebreak
  | fault (e : Fault)
  deriving DecidableEq, Repr

/-- `RunStateOf` (R165). -/
def StepOutcome.runState : StepOutcome → RunState
  | .continue => .running
  | .ecall => .halted .ecall
  | .ebreak => .halted .ebreak
  | .fault e => .faulted e

/-- The outcome that left a run-state: the other direction of `RunStateOf`. -/
def RunState.outcome : RunState → StepOutcome
  | .running => .continue
  | .halted .ecall => .ecall
  | .halted .ebreak => .ebreak
  | .faulted e => .fault e

/-- The state after one step, a fault recorded in the run-state and nothing else changed by it (R160, R164,
R165). No step is refused; the last case keeps the function total. -/
def State.afterStep (s : State) : State :=
  match step s with
  | .next t => t
  | .fault e => s.takeFault e
  | .refused _ => s

/-- `run()` (R164) with a bound on its steps: the state it returns in, or none where it has not returned
within `fuel` steps (R166, log 7). In a terminal run-state it returns at once. -/
def State.runToEnd (s : State) : Nat → Option State
  | 0 => if s.run = .running then none else some s
  | fuel + 1 => if s.run = .running then s.afterStep.runToEnd fuel else some s

/-- The state after `n` steps (R165). -/
def State.afterSteps (s : State) : Nat → State
  | 0 => s
  | n + 1 => s.afterStep.afterSteps n

/-- `run_for_steps(n)` (R165): exactly `n` steps, and the outcome of the last one, none for `n` = 0. -/
def State.runForSteps (s : State) (n : Nat) : State × Option StepOutcome :=
  (s.afterSteps n, if n = 0 then none else some (s.afterSteps n).run.outcome)

end Sys2Proof.Machine
end

