-- ==== Sys2Proof/Safety.lean ====
section
/-! DEFINITION. The terms claims are made in: the invariant of every state, and what a step leaves unchanged. -/

namespace Sys2Proof

/-- The register an instruction names as its destination and writes; the CSR placeholders write none (R284-R289). -/
def Instr.dest : Instr → Option RegIdx
  | .lui rd _ | .auipc rd _ => some rd
  | .addi rd _ _ | .slti rd _ _ | .sltiu rd _ _ | .xori rd _ _ | .ori rd _ _ | .andi rd _ _ => some rd
  | .slli rd _ _ | .srli rd _ _ | .srai rd _ _ => some rd
  | .add rd _ _ | .sub rd _ _ | .sll rd _ _ | .slt rd _ _ | .sltu rd _ _ => some rd
  | .xor rd _ _ | .srl rd _ _ | .sra rd _ _ | .or rd _ _ | .and rd _ _ => some rd
  | .jal rd _ | .jalr rd _ _ => some rd
  | .lb rd _ _ | .lh rd _ _ | .lw rd _ _ | .lbu rd _ _ | .lhu rd _ _ => some rd
  | .beq _ _ _ | .bne _ _ _ | .blt _ _ _ | .bge _ _ _ | .bltu _ _ _ | .bgeu _ _ _ => none
  | .sb _ _ _ | .sh _ _ _ | .sw _ _ _ => none
  | .fence _ _ | .fenceI | .ecall | .ebreak => none
  | .csrrw _ _ _ | .csrrs _ _ _ | .csrrc _ _ _ => none
  | .csrrwi _ _ _ | .csrrsi _ _ _ | .csrrci _ _ _ => none

/-- The registers an instruction reads; the CSR placeholders read none (R284-R289). -/
def Instr.sources : Instr → List RegIdx
  | .lui _ _ | .auipc _ _ | .jal _ _ => []
  | .addi _ a _ | .slti _ a _ | .sltiu _ a _ | .xori _ a _ | .ori _ a _ | .andi _ a _ => [a]
  | .slli _ a _ | .srli _ a _ | .srai _ a _ => [a]
  | .add _ a b | .sub _ a b | .sll _ a b | .slt _ a b | .sltu _ a b => [a, b]
  | .xor _ a b | .srl _ a b | .sra _ a b | .or _ a b | .and _ a b => [a, b]
  | .jalr _ a _ => [a]
  | .lb _ a _ | .lh _ a _ | .lw _ a _ | .lbu _ a _ | .lhu _ a _ => [a]
  | .beq a b _ | .bne a b _ | .blt a b _ | .bge a b _ | .bltu a b _ | .bgeu a b _ => [a, b]
  | .sb a b _ | .sh a b _ | .sw a b _ => [a, b]
  | .fence _ _ | .fenceI | .ecall | .ebreak => []
  | .csrrw _ _ _ | .csrrs _ _ _ | .csrrc _ _ _ => []
  | .csrrwi _ _ _ | .csrrsi _ _ _ | .csrrci _ _ _ => []

/-- The width of a load, with its base register and immediate (R66). -/
def Instr.loads : Instr → Option (Machine.Width × RegIdx × Word)
  | .lb _ a imm | .lbu _ a imm => some (.byte, a, imm)
  | .lh _ a imm | .lhu _ a imm => some (.half, a, imm)
  | .lw _ a imm => some (.word, a, imm)
  | .lui _ _ | .auipc _ _ | .addi _ _ _ | .slti _ _ _ | .sltiu _ _ _ | .xori _ _ _ => none
  | .ori _ _ _ | .andi _ _ _ | .slli _ _ _ | .srli _ _ _ | .srai _ _ _ | .add _ _ _ => none
  | .sub _ _ _ | .sll _ _ _ | .slt _ _ _ | .sltu _ _ _ | .xor _ _ _ | .srl _ _ _ => none
  | .sra _ _ _ | .or _ _ _ | .and _ _ _ | .jal _ _ | .jalr _ _ _ | .beq _ _ _ => none
  | .bne _ _ _ | .blt _ _ _ | .bge _ _ _ | .bltu _ _ _ | .bgeu _ _ _ | .sb _ _ _ => none
  | .sh _ _ _ | .sw _ _ _ | .fence _ _ | .fenceI | .ecall | .ebreak => none
  | .csrrw _ _ _ | .csrrs _ _ _ | .csrrc _ _ _ | .csrrwi _ _ _ | .csrrsi _ _ _ | .csrrci _ _ _ => none

/-- The width of a store, with its base register and immediate (R66). -/
def Instr.stores : Instr → Option (Machine.Width × RegIdx × Word)
  | .sb a _ imm => some (.byte, a, imm)
  | .sh a _ imm => some (.half, a, imm)
  | .sw a _ imm => some (.word, a, imm)
  | .lui _ _ | .auipc _ _ | .addi _ _ _ | .slti _ _ _ | .sltiu _ _ _ | .xori _ _ _ => none
  | .ori _ _ _ | .andi _ _ _ | .slli _ _ _ | .srli _ _ _ | .srai _ _ _ | .add _ _ _ => none
  | .sub _ _ _ | .sll _ _ _ | .slt _ _ _ | .sltu _ _ _ | .xor _ _ _ | .srl _ _ _ => none
  | .sra _ _ _ | .or _ _ _ | .and _ _ _ | .jal _ _ | .jalr _ _ _ | .beq _ _ _ => none
  | .bne _ _ _ | .blt _ _ _ | .bge _ _ _ | .bltu _ _ _ | .bgeu _ _ _ | .lb _ _ _ => none
  | .lh _ _ _ | .lw _ _ _ | .lbu _ _ _ | .lhu _ _ _ | .fence _ _ | .fenceI => none
  | .ecall | .ebreak | .csrrw _ _ _ | .csrrs _ _ _ | .csrrc _ _ _ | .csrrwi _ _ _ => none
  | .csrrsi _ _ _ | .csrrci _ _ _ => none

/-- The words of a recognized opcode that match no funct3 and funct7 of it, with the format their fault names
(R117-R120, R122-R125; R304's cause of FormatError). -/
def NoMatchingFunct (w : Word) (f : Fmt) : Prop :=
  let op := w.extractLsb' 0 7
  let f3 := w.extractLsb' 12 3
  let f7 := w.extractLsb' 25 7
  (op = 0b1100111#7 ∧ f3 ≠ 0b000#3 ∧ f = .i) ∨
  (op = 0b1100011#7 ∧ (f3 = 0b010#3 ∨ f3 = 0b011#3) ∧ f = .b) ∨
  (op = 0b0000011#7 ∧ (f3 = 0b011#3 ∨ f3 = 0b110#3 ∨ f3 = 0b111#3) ∧ f = .i) ∨
  (op = 0b0100011#7 ∧ 3 ≤ f3.toNat ∧ f = .s) ∨
  (op = 0b0010011#7 ∧ f3 = 0b001#3 ∧ f7 ≠ 0b0000000#7 ∧ f = .r) ∨
  (op = 0b0010011#7 ∧ f3 = 0b101#3 ∧ f7 ≠ 0b0000000#7 ∧ f7 ≠ 0b0100000#7 ∧ f = .r) ∨
  (op = 0b0110011#7 ∧ f7 ≠ 0b0000000#7 ∧ (f7 ≠ 0b0100000#7 ∨ (f3 ≠ 0b000#3 ∧ f3 ≠ 0b101#3)) ∧ f = .r) ∨
  (op = 0b0001111#7 ∧ 2 ≤ f3.toNat ∧ f = .fence) ∨
  (op = 0b1110011#7 ∧ (f3 = 0b100#3 ∨ (f3 = 0b000#3 ∧ w ≠ 0x00000073#32 ∧ w ≠ 0x00100073#32)) ∧ f = .i)

end Sys2Proof

namespace Sys2Proof.Machine

open Sys2Proof

/-- The invariant of the machine: the segment map is in canonical form (R34, R53). -/
abbrev State.Inv (s : State) : Prop := s.mem.wf

/-- Everything but the general registers and the pc is the same. -/
def State.SameRest (s t : State) : Prop :=
  t.mem = s.mem ∧ t.run = s.run ∧ t.params = s.params ∧ t.started = s.started

/-- The frame of an instruction that writes rd alone: rd reads `v` (x0 reads 0, the write discarded, R22), every
other register reads as before, and so does everything but the pc. -/
def State.WritesOnly (s t : State) (rd : RegIdx) (v : Word) : Prop :=
  t.reg rd = (if rd = 0#5 then 0#32 else v) ∧ (∀ r, r ≠ rd → t.reg r = s.reg r) ∧ s.SameRest t

/-- The frame of an instruction that writes no register and no memory: all but the pc is as before. -/
def State.PcOnly (s t : State) : Prop := (∀ r, t.reg r = s.reg r) ∧ s.SameRest t

/-- The frame of a store of `n` bytes at `a`: registers and the rest are as before, and so is every byte outside
`[a, a + n)`, taken as integers (R58); the segments are the same. -/
def State.StoresOnly (s t : State) (a : Word) (n : Nat) : Prop :=
  (∀ r, t.reg r = s.reg r) ∧ t.run = s.run ∧ t.params = s.params ∧ t.started = s.started ∧
  t.mem.segs = s.mem.segs ∧
  ∀ b : Word, (b.toNat < a.toNat ∨ a.toNat + n ≤ b.toNat) → t.mem.readByte b = s.mem.readByte b

/-- The byte at the integer address `x` exists: below 2^32 (R58) and covered by a segment (R55). -/
abbrev Memory.HasByte (m : Memory) (x : Nat) : Prop :=
  x < 2 ^ 32 ∧ ∃ g ∈ m.segs, g.base.toNat ≤ x ∧ x < g.base.toNat + g.size

/-- The lowest byte of an `n`-byte access at `a` that does not exist is byte `k` (R59, R60). -/
abbrev Memory.LowestMissing (m : Memory) (a : Word) (n k : Nat) : Prop :=
  k < n ∧ ¬ m.HasByte (a.toNat + k) ∧ ∀ j < k, m.HasByte (a.toNat + j)

/-- The instruction goes on to a next state in which rd holds `v` and nothing else but the pc, now `pc'`, differs. -/
def WritesAndJumps (i : Instr) (s : State) (rd : RegIdx) (v pc' : Word) : Prop :=
  ∃ t, exec i s = .next t ∧ s.WritesOnly t rd v ∧ t.pc = pc'

/-- The instruction goes on to a next state in which rd holds `v`, the pc is 4 further, and nothing else differs. -/
def Writes (i : Instr) (s : State) (rd : RegIdx) (v : Word) : Prop := WritesAndJumps i s rd v (s.pc + 4#32)

/-- The instruction goes on to a next state in which only the pc differs, and is `pc'`. -/
def OnlyJumps (i : Instr) (s : State) (pc' : Word) : Prop := ∃ t, exec i s = .next t ∧ s.PcOnly t ∧ t.pc = pc'

/-- A run of `n` steps that meets no fault and no refusal. -/
def State.SafeFor (s : State) : Nat → Prop
  | 0 => True
  | n + 1 => ∃ t, step s = .next t ∧ t.SafeFor n

end Sys2Proof.Machine
end

