-- ==== Sys2Proof/Certificates/Slice0/Obligations.lean ====
section
/-! DEFINITION. The statements for the provers. Each docstring names the rules of spec/ it formalises; where a clause
rests on a decision the spec marks as its own, or on a choice of the model, it says so. -/

open Sys2Proof Sys2Proof.Machine

/-! ## Decoding and encoding -/

/-- R134: the two worked decodes, with the fields the rule reads off each word. -/
def Obligations.WorkedDecodes : Prop :=
  decode 0x7FF00193#32 = .ok (.addi 3#5 0#5 2047#32) ∧
  opcodeOf 0x7FF00193#32 = 0b0010011#7 ∧ rdOf 0x7FF00193#32 = 0b00011#5 ∧ funct3Of 0x7FF00193#32 = 0b000#3 ∧
  rs1Of 0x7FF00193#32 = 0b00000#5 ∧ (0x7FF00193#32).extractLsb' 20 12 = 0x7FF#12 ∧
  decode 0x01000FEF#32 = .ok (.jal 31#5 16#32) ∧
  opcodeOf 0x01000FEF#32 = 0b1101111#7 ∧ rdOf 0x01000FEF#32 = 0b11111#5 ∧
  (0x01000FEF#32).extractLsb' 31 1 = 0#1 ∧ (0x01000FEF#32).extractLsb' 21 10 = 0b0000001000#10 ∧
  (0x01000FEF#32).extractLsb' 20 1 = 0#1 ∧ (0x01000FEF#32).extractLsb' 12 8 = 0#8

/-- One word of every family, from the examples of R203, R213, R214, R242, R247, R280, R284 and of 95_test_vectors.md;
the field positions are the spec's decision D15. -/
def Obligations.FamilyWordsDecode : Prop :=
  decode 0x123452B7#32 = .ok (.lui 5#5 0x12345000#32) ∧
  decode 0x40435293#32 = .ok (.srai 5#5 6#5 4#5) ∧
  decode 0x007302B3#32 = .ok (.add 5#5 6#5 7#5) ∧
  decode 0x001100E7#32 = .ok (.jalr 1#5 2#5 1#32) ∧
  decode 0xFE209EE3#32 = .ok (.bne 1#5 2#5 0xFFFFFFFC#32) ∧
  decode 0x00432703#32 = .ok (.lw 14#5 6#5 4#32) ∧
  decode 0xFE732F23#32 = .ok (.sw 6#5 7#5 0xFFFFFFFE#32) ∧
  decode 0x0330000F#32 = .ok (.fence 3#4 3#4) ∧
  decode 0x00000073#32 = .ok .ecall ∧
  decode 0x300312F3#32 = .ok (.csrrw 5#5 6#5 0x300#12)

/-- Every well-formed instruction, whatever its operands, is what its encoding decodes to (R101-R125; the layouts are
the spec's decision D15). -/
def Obligations.DecodeOfEncode : Prop := ∀ i : Instr, i.wellFormed = true → decode (encode i) = .ok i

/-- Every word that decodes is the encoding of what it decodes to, but for FENCE.I, whose bits 27:20 are ignored
(R124, decision D8). -/
def Obligations.EncodeOfDecode : Prop := ∀ w i, decode w = .ok i → i ≠ .fenceI → encode i = w

/-- Every decoded instruction has its immediate in the range of R131. -/
def Obligations.DecodedIsWellFormed : Prop := ∀ w i, decode w = .ok i → i.wellFormed = true

/-- R115: the opcode is word[6:0], and decoding fails with InvalidInstruction(word, opcode) exactly when it is none of
the eleven values of the map. -/
def Obligations.UnrecognizedOpcode : Prop :=
  ∀ w : Word, decode w = .error (.invalidInstruction w (w.extractLsb' 0 7)) ↔
    w.extractLsb' 0 7 ∉ [0b0110111#7, 0b0010111#7, 0b1101111#7, 0b1100111#7, 0b1100011#7, 0b0000011#7, 0b0100011#7,
      0b0010011#7, 0b0110011#7, 0b0001111#7, 0b1110011#7]

/-- Every decode fault carries the word and its opcode (R126; the name FormatError is decision D14). -/
def Obligations.DecodeFaultCarriesWord : Prop :=
  ∀ w d, decode w = .error d →
    d = .invalidInstruction w (w.extractLsb' 0 7) ∨ d = .invalidFence w (w.extractLsb' 0 7) ∨
    ∃ f, d = .formatError f w (w.extractLsb' 0 7)

/-- The MISC-MEM opcode: the Fence check first, then funct3 (R124, decision D8). -/
def Obligations.MiscMemDecode : Prop :=
  ∀ w : Word, w.extractLsb' 0 7 = 0b0001111#7 →
    decode w =
      if w.extractLsb' 7 5 ≠ 0#5 ∨ w.extractLsb' 15 5 ≠ 0#5 ∨ w.extractLsb' 28 4 ≠ 0#4 then
        .error (.invalidFence w 0b0001111#7)
      else if w.extractLsb' 12 3 = 0b000#3 then .ok (.fence (w.extractLsb' 24 4) (w.extractLsb' 20 4))
      else if w.extractLsb' 12 3 = 0b001#3 then .ok .fenceI
      else .error (.formatError .fence w 0b0001111#7)

/-- The SYSTEM opcode (R125, decisions D7 and D21). -/
def Obligations.SystemDecode : Prop :=
  ∀ w : Word, w.extractLsb' 0 7 = 0b1110011#7 →
    (w.extractLsb' 12 3 = 0b000#3 → decode w =
      if w = 0x00000073#32 then .ok .ecall else if w = 0x00100073#32 then .ok .ebreak
      else .error (.formatError .i w 0b1110011#7)) ∧
    (w.extractLsb' 12 3 = 0b001#3 → decode w = .ok (.csrrw (w.extractLsb' 7 5) (w.extractLsb' 15 5) (w.extractLsb' 20 12))) ∧
    (w.extractLsb' 12 3 = 0b010#3 → decode w = .ok (.csrrs (w.extractLsb' 7 5) (w.extractLsb' 15 5) (w.extractLsb' 20 12))) ∧
    (w.extractLsb' 12 3 = 0b011#3 → decode w = .ok (.csrrc (w.extractLsb' 7 5) (w.extractLsb' 15 5) (w.extractLsb' 20 12))) ∧
    (w.extractLsb' 12 3 = 0b100#3 → decode w = .error (.formatError .i w 0b1110011#7)) ∧
    (w.extractLsb' 12 3 = 0b101#3 → decode w = .ok (.csrrwi (w.extractLsb' 7 5) (w.extractLsb' 15 5) (w.extractLsb' 20 12))) ∧
    (w.extractLsb' 12 3 = 0b110#3 → decode w = .ok (.csrrsi (w.extractLsb' 7 5) (w.extractLsb' 15 5) (w.extractLsb' 20 12))) ∧
    (w.extractLsb' 12 3 = 0b111#3 → decode w = .ok (.csrrci (w.extractLsb' 7 5) (w.extractLsb' 15 5) (w.extractLsb' 20 12)))

/-- A recognized opcode with no matching funct3 and funct7 is a FormatError of its format (R117-R120, R122, R123;
decisions D5 and D6). -/
def Obligations.UnmatchedFunctFaults : Prop :=
  ∀ w : Word,
    let op := w.extractLsb' 0 7
    let f3 := w.extractLsb' 12 3
    let f7 := w.extractLsb' 25 7
    (op = 0b1100111#7 → f3 ≠ 0b000#3 → decode w = .error (.formatError .i w op)) ∧
    (op = 0b1100011#7 → (f3 = 0b010#3 ∨ f3 = 0b011#3) → decode w = .error (.formatError .b w op)) ∧
    (op = 0b0000011#7 → (f3 = 0b011#3 ∨ f3 = 0b110#3 ∨ f3 = 0b111#3) → decode w = .error (.formatError .i w op)) ∧
    (op = 0b0100011#7 → 3 ≤ f3.toNat → decode w = .error (.formatError .s w op)) ∧
    (op = 0b0010011#7 → f3 = 0b001#3 → f7 ≠ 0b0000000#7 → decode w = .error (.formatError .r w op)) ∧
    (op = 0b0010011#7 → f3 = 0b101#3 → f7 ≠ 0b0000000#7 → f7 ≠ 0b0100000#7 →
      decode w = .error (.formatError .r w op)) ∧
    (op = 0b0110011#7 → f7 ≠ 0b0000000#7 → (f7 ≠ 0b0100000#7 ∨ (f3 ≠ 0b000#3 ∧ f3 ≠ 0b101#3)) →
      decode w = .error (.formatError .r w op))

/-- The illegal space listed by R128: the compressed space, the M-extension words, FENCE.TSO, and the SYSTEM
funct3 = 000 words other than ECALL and EBREAK (decisions D5, D7, D8). -/
def Obligations.IllegalSpaceFaults : Prop :=
  (∀ w : Word, w.extractLsb' 0 2 ≠ 0b11#2 → decode w = .error (.invalidInstruction w (w.extractLsb' 0 7))) ∧
  decode 0x00000000#32 = .error (.invalidInstruction 0x00000000#32 0b0000000#7) ∧
  decode 0xFFFFFFFF#32 = .error (.invalidInstruction 0xFFFFFFFF#32 0b1111111#7) ∧
  (∀ w : Word, w.extractLsb' 0 7 ∈ [0b0001011#7, 0b0101011#7, 0b1011011#7, 0b1111011#7, 0b0101111#7, 0b0000111#7,
      0b0100111#7, 0b1010011#7, 0b1010111#7] → decode w = .error (.invalidInstruction w (w.extractLsb' 0 7))) ∧
  (∀ w : Word, w.extractLsb' 0 7 = 0b0110011#7 → w.extractLsb' 25 7 = 0b0000001#7 →
    decode w = .error (.formatError .r w 0b0110011#7)) ∧
  (∀ w : Word, w.extractLsb' 0 7 = 0b0001111#7 → w.extractLsb' 28 4 = 0b1000#4 →
    decode w = .error (.invalidFence w 0b0001111#7)) ∧
  (∀ w : Word, w.extractLsb' 0 7 = 0b1110011#7 → w.extractLsb' 12 3 = 0b000#3 → w ≠ 0x00000073#32 →
    w ≠ 0x00100073#32 → decode w = .error (.formatError .i w 0b1110011#7))

/-! ## Registers and pc -/

/-- R21: get(0) is 0 whatever was set, and get(i) is the stored value otherwise. -/
def Obligations.ReadPort : Prop :=
  (∀ s : State, s.reg 0#5 = 0#32) ∧
  (∀ (s : State) (i : RegIdx), i ≠ 0#5 → s.regs[i.toNat - 1]? = some (s.reg i)) ∧
  (∀ (s : State) (v : Word), (s.setReg 0#5 v).reg 0#5 = 0#32)

/-- R22: set(0, v) changes nothing; set(i, v) stores v in register i alone. -/
def Obligations.WritePort : Prop :=
  (∀ (s : State) (v : Word), s.setReg 0#5 v = s) ∧
  (∀ (s : State) (i : RegIdx) (v : Word), i ≠ 0#5 →
    (s.setReg i v).reg i = v ∧ (∀ j, j ≠ i → (s.setReg i v).reg j = s.reg j) ∧
    (s.setReg i v).pc = s.pc ∧ s.SameRest (s.setReg i v))

/-- R31 (with R30's operations): the pc moves modulo 2^32, for any signed displacement, and no register moves with it. -/
def Obligations.PcWraps : Prop :=
  (∀ s : State, s.incrementPc.pc.toNat = (s.pc.toNat + 4) % 2 ^ 32) ∧
  (∀ s : State, s.pc = 0xFFFFFFFC#32 → s.incrementPc.pc = 0x00000000#32) ∧
  (∀ s : State, s.pc = 0xFFFFFFFF#32 → s.incrementPc.pc = 0x00000003#32) ∧
  (∀ (s : State) (d : Int), ((s.addToPc (BitVec.ofInt 32 d)).pc.toNat : Int) = (s.pc.toNat + d) % 2 ^ 32) ∧
  (∀ (s : State) (v : Word), (s.setPc v).pc = v) ∧
  (∀ (s : State) (v : Word) (i : RegIdx),
    s.incrementPc.reg i = s.reg i ∧ (s.addToPc v).reg i = s.reg i ∧ (s.setPc v).reg i = s.reg i)

/-! ## Memory -/

/-- R55: an address is mapped when a segment covers it, and by the non-overlap invariant at most one does. -/
def Obligations.MappedByOneSegment : Prop :=
  ∀ m : Memory, m.wf → ∀ a : Word,
    (m.mapped a.toNat = true ↔ ∃ g ∈ m.segs, g.base.toNat ≤ a.toNat ∧ a.toNat < g.base.toNat + g.size) ∧
    ∀ g ∈ m.segs, ∀ h ∈ m.segs,
      (g.base.toNat ≤ a.toNat ∧ a.toNat < g.base.toNat + g.size) →
      (h.base.toNat ≤ a.toNat ∧ a.toNat < h.base.toNat + h.size) → g = h

/-- R59: MemRead is the little-endian composition of its bytes, zero-extended, and its fault names the lowest byte
that is unmapped or passes 2^32. -/
def Obligations.ReadComposesBytes : Prop :=
  ∀ (m : Memory) (a : Word) (w : Width),
    (∀ b : Nat → Byte, a.toNat + w.bytes ≤ 2 ^ 32 →
      (∀ k < w.bytes, m.readByte (BitVec.ofNat 32 (a.toNat + k)) = .ok (b k)) →
      ∃ v, m.read a w = .ok v ∧ ∀ k < 4, v.extractLsb' (8 * k) 8 = if k < w.bytes then b k else 0#8) ∧
    (∀ k, m.LowestMissing a w.bytes k → m.read a w = .error (.unmappedRegion (BitVec.ofNat 32 (a.toNat + k))))

/-- R58 (decision D3): an access that passes 0xFFFFFFFF does not wrap. With its other bytes mapped its fault carries
address 0, and under Discard it leaves every lower address alone. -/
def Obligations.NoWrapPastTop : Prop :=
  ∀ (m : Memory) (a : Word) (w : Width) (v : Word), 2 ^ 32 < a.toNat + w.bytes →
    (∃ x, m.read a w = .error (.unmappedRegion x) ∧ m.write .fault a w v = .error (.unmappedRegion x)) ∧
    ((∀ k, a.toNat + k < 2 ^ 32 → m.HasByte (a.toNat + k)) → m.read a w = .error (.unmappedRegion 0#32)) ∧
    (∃ n, m.write .discard a w v = .ok n ∧ ∀ b : Word, b.toNat < a.toNat → n.readByte b = m.readByte b)

/-- R60 (decision D2): under Fault a write stores all its bytes and nothing else, or faults at the lowest missing one. -/
def Obligations.FaultingWriteIsAllOrNothing : Prop :=
  ∀ (m : Memory) (a : Word) (w : Width) (v : Word),
    ((∀ k < w.bytes, m.HasByte (a.toNat + k)) → ∃ n, m.write .fault a w v = .ok n ∧ n.segs = m.segs ∧
      (∀ k < w.bytes, n.readByte (BitVec.ofNat 32 (a.toNat + k)) = .ok (v.extractLsb' (8 * k) 8)) ∧
      ∀ b : Word, (b.toNat < a.toNat ∨ a.toNat + w.bytes ≤ b.toNat) → n.readByte b = m.readByte b) ∧
    (∀ k, m.LowestMissing a w.bytes k →
      m.write .fault a w v = .error (.unmappedRegion (BitVec.ofNat 32 (a.toNat + k))))

/-- R61: under Discard a write never faults; it stores its mapped bytes and drops the rest. -/
def Obligations.DiscardingWriteKeepsMapped : Prop :=
  ∀ (m : Memory) (a : Word) (w : Width) (v : Word), ∃ n, m.write .discard a w v = .ok n ∧ n.segs = m.segs ∧
    (∀ k < w.bytes, m.HasByte (a.toNat + k) →
      n.readByte (BitVec.ofNat 32 (a.toNat + k)) = .ok (v.extractLsb' (8 * k) 8)) ∧
    (∀ b : Word, ¬ m.HasByte b.toNat → n.readByte b = .error (.unmappedRegion b)) ∧
    (∀ b : Word, (b.toNat < a.toNat ∨ a.toNat + w.bytes ≤ b.toNat) → n.readByte b = m.readByte b)

/-- R63: a word written reads back whole, byte by byte, and through narrower accesses, under either parameter value. -/
def Obligations.WordRoundTrip : Prop :=
  ∀ (m : Memory) (mode : UnmappedWrite) (a v : Word), (∀ k < 4, m.HasByte (a.toNat + k)) →
    ∃ n, m.write mode a .word v = .ok n ∧ n.read a .word = .ok v ∧
      (∀ k < 4, n.readByte (BitVec.ofNat 32 (a.toNat + k)) = .ok (v.extractLsb' (8 * k) 8)) ∧
      (v = 0x11223344#32 → n.read a .byte = .ok 0x44#32 ∧ n.read (a + 1#32) .half = .ok 0x2233#32 ∧
        n.read (a + 2#32) .half = .ok 0x1122#32)

/-- R54: no instruction changes the segments, so the set of mapped addresses is constant over any number of steps. -/
def Obligations.SegmentsNeverChange : Prop :=
  (∀ i s t, exec i s = .next t → t.mem.segs = s.mem.segs) ∧
  (∀ (s : State) (n : Nat), (s.afterSteps n).mem.segs = s.mem.segs) ∧
  (∀ (s : State) (n x : Nat), (s.afterSteps n).mem.HasByte x ↔ s.mem.HasByte x)

/-- `add_segment` (R51, R52, R53; refused requests are decisions D10 and D22): each of its four answers, the accepted
one mapping exactly one more segment, all of it 0x00. -/
def Obligations.AddSegmentAnswers : Prop :=
  ∀ (s : State) (base : Word) (size : Nat), s.Inv →
    (s.started = true → s.addSegment base size = .refused .segmentAfterStart) ∧
    (s.started = false → (size = 0 ∨ 2 ^ 32 < base.toNat + size) → s.addSegment base size = .refused .invalidSegment) ∧
    (s.started = false → 1 ≤ size → base.toNat + size ≤ 2 ^ 32 →
      (∃ g ∈ s.mem.segs, g.base.toNat < base.toNat + size ∧ base.toNat < g.base.toNat + g.size) →
      s.addSegment base size = .fault (.memory .alreadyMappedRegion)) ∧
    (s.started = false → 1 ≤ size → base.toNat + size ≤ 2 ^ 32 →
      (¬ ∃ g ∈ s.mem.segs, g.base.toNat < base.toNat + size ∧ base.toNat < g.base.toNat + g.size) →
      ∃ t, s.addSegment base size = .next t ∧ t.Inv ∧ t.regs = s.regs ∧ t.pc = s.pc ∧ t.run = s.run ∧
        t.params = s.params ∧ t.started = s.started ∧
        (∀ g, g ∈ t.mem.segs ↔ g = ⟨base, size⟩ ∨ g ∈ s.mem.segs) ∧
        (∀ a : Word, base.toNat ≤ a.toNat → a.toNat < base.toNat + size → t.mem.readByte a = .ok 0#8) ∧
        (∀ a : Word, (a.toNat < base.toNat ∨ base.toNat + size ≤ a.toNat) → t.mem.readByte a = s.mem.readByte a))

/-- R301: AlreadyMappedRegion comes from an overlapping `add_segment` alone; no step reports it. -/
def Obligations.AlreadyMappedOnlyFromSetup : Prop :=
  (∀ (s : State) (base : Word) (size : Nat), s.addSegment base size = .fault (.memory .alreadyMappedRegion) →
    ∃ g ∈ s.mem.segs, g.base.toNat < base.toNat + size ∧ base.toNat < g.base.toNat + g.size) ∧
  (∀ (s : State) (a : Word) (w : Width) (v : Word), s.hostRead a w ≠ .error .alreadyMappedRegion ∧
    s.hostWrite a w v ≠ .fault (.memory .alreadyMappedRegion)) ∧
  (∀ (l : Launch) (p : Params), l.state p ≠ .fault (.memory .alreadyMappedRegion)) ∧
  (∀ s : State, step s ≠ .fault (.memory .alreadyMappedRegion) ∧
    step s ≠ .fault (.execute (.memory .alreadyMappedRegion)))

/-! ## The step -/

/-- R150, R153, R154, R305: a step fetches four bytes at the pc, decodes them and executes the instruction, each stage
only if the one before succeeded. That execution starts with run-state Running and the started mark set is the model's
own convention (log 2, log 4). -/
def Obligations.StepRunsDecoded : Prop :=
  ∀ s : State,
    (∀ k, s.mem.LowestMissing s.pc 4 k →
      step s = .fault (.memory (.unmappedRegion (BitVec.ofNat 32 (s.pc.toNat + k))))) ∧
    (∀ b0 b1 b2 b3, s.pc.toNat + 4 ≤ 2 ^ 32 → s.mem.readByte s.pc = .ok b0 → s.mem.readByte (s.pc + 1#32) = .ok b1 →
      s.mem.readByte (s.pc + 2#32) = .ok b2 → s.mem.readByte (s.pc + 3#32) = .ok b3 →
      (∀ d, decode (b3 ++ b2 ++ b1 ++ b0) = .error d → step s = .fault (.decode d)) ∧
      (∀ i, decode (b3 ++ b2 ++ b1 ++ b0) = .ok i →
        step s = exec i { s with run := .running, started := true }))

/-- Placing a word where the step fetches (log 6) makes the next step run it, and changes nothing else. -/
def Obligations.PlacedWordRuns : Prop :=
  ∀ (s : State) (w : Word) (i : Instr), s.pc.toNat + 4 ≤ 2 ^ 32 → decode w = .ok i →
    ∃ t, t = s.withFetchWord 32 w.toNat ∧ step t = exec i { t with run := .running, started := true } ∧
      t.regs = s.regs ∧ t.pc = s.pc ∧ t.run = s.run ∧ t.params = s.params ∧ t.started = s.started ∧
      (s.Inv → t.Inv) ∧
      ∀ a : Word, (a.toNat < s.pc.toNat ∨ s.pc.toNat + 4 ≤ a.toNat) → t.mem.readByte a = s.mem.readByte a

/-- Dispatch is exhaustive (R155, decision D20): no step is refused, and none raises InvalidExecutionInstruction. -/
def Obligations.StepIsNeverRefused : Prop :=
  ∀ s : State, (∀ r, step s ≠ .refused r) ∧ step s ≠ .fault (.execute .invalidExecutionInstruction)

/-- R304: every fault a step can report, with its cause, the instructions that raise it and the value it records
(payloads and names are decisions D4, D7, D8, D14). -/
def Obligations.FaultCauseTable : Prop :=
  ∀ (s : State) (e : Fault), step s = .fault e →
    (∃ k, s.mem.LowestMissing s.pc 4 k ∧ e = .memory (.unmappedRegion (BitVec.ofNat 32 (s.pc.toNat + k)))) ∨
    (∃ w, s.mem.read s.pc .word = .ok w ∧
      ((e = .decode (.invalidInstruction w (w.extractLsb' 0 7)) ∧
          w.extractLsb' 0 7 ∉ [0b0110111#7, 0b0010111#7, 0b1101111#7, 0b1100111#7, 0b1100011#7, 0b0000011#7,
            0b0100011#7, 0b0010011#7, 0b0110011#7, 0b0001111#7, 0b1110011#7]) ∨
       (e = .decode (.invalidFence w 0b0001111#7) ∧ w.extractLsb' 0 7 = 0b0001111#7 ∧
          (w.extractLsb' 7 5 ≠ 0#5 ∨ w.extractLsb' 15 5 ≠ 0#5 ∨ w.extractLsb' 28 4 ≠ 0#4)) ∨
       (∃ f, e = .decode (.formatError f w (w.extractLsb' 0 7)) ∧ NoMatchingFunct w f) ∨
       (∃ rd imm, decode w = .ok (.jal rd imm) ∧ imm.toNat % 4 ≠ 0 ∧ e = .execute (.misalignedAddress (s.pc + imm))) ∨
       (∃ rd rs1 imm, decode w = .ok (.jalr rd rs1 imm) ∧ (s.jalrTarget rd rs1 imm).toNat % 4 ≠ 0 ∧
          e = .execute (.misalignedAddress (s.jalrTarget rd rs1 imm))) ∨
       (∃ i n rs1 imm k, decode w = .ok i ∧
          (i.loads = some (n, rs1, imm) ∨ (i.stores = some (n, rs1, imm) ∧ s.params.unmappedWrite = .fault)) ∧
          s.mem.LowestMissing (s.reg rs1 + imm) n.bytes k ∧
          e = .execute (.memory (.unmappedRegion (BitVec.ofNat 32 ((s.reg rs1 + imm).toNat + k)))))))

/-- Faults are precise (R160, decision D2): after a faulting step the registers, the pc and memory are as before, and
the run-state records the fault (R164, R165). -/
def Obligations.FaultChangesNothing : Prop :=
  ∀ (s : State) (e : Fault), step s = .fault e →
    s.afterStep.regs = s.regs ∧ s.afterStep.pc = s.pc ∧ s.afterStep.mem = s.mem ∧ s.afterStep.params = s.params ∧
    s.afterStep.run = .faulted e

/-- R163: stepping on after a fault faults again with the same error and changes nothing again, however often. -/
def Obligations.FaultRepeats : Prop :=
  ∀ (s : State) (e : Fault), step s = .fault e →
    step s.afterStep = .fault e ∧ ∀ n : Nat, s.afterSteps (n + 1) = s.afterStep

/-- A step does the same whatever the run-state is (R165, decision D12) and whether or not it is the first. -/
def Obligations.StepIgnoresRunState : Prop :=
  ∀ (s : State) (r : RunState) (b : Bool), step { s with run := r, started := b } = step s

/-! ## All instructions -/

/-- The frame of every instruction: a register other than its destination, all of memory but the bytes a store addresses,
the parameters, and the run-state unless it is ECALL or EBREAK are unchanged (R23, R36, R60, R61, R157, R158, R282,
R283). -/
def Obligations.InstructionFrame : Prop :=
  ∀ (i : Instr) (s t : State), exec i s = .next t →
    (∀ r, i.dest ≠ some r → t.reg r = s.reg r) ∧ (i.stores = none → t.mem = s.mem) ∧
    (∀ w rs1 imm, i.stores = some (w, rs1, imm) → ∀ b : Word,
      (b.toNat < (s.reg rs1 + imm).toNat ∨ (s.reg rs1 + imm).toNat + w.bytes ≤ b.toNat) →
      t.mem.readByte b = s.mem.readByte b) ∧
    t.params = s.params ∧ t.started = s.started ∧ (i ≠ .ecall → i ≠ .ebreak → t.run = s.run)

/-- The next pc of every instruction (R158); JALR's base is that of R242, which depends on the parameter
jalr_link_first (decision D9). -/
def Obligations.NextPcTable : Prop :=
  ∀ (i : Instr) (s t : State), exec i s = .next t →
    match i with
    | .jal _ imm => t.pc = s.pc + imm
    | .jalr rd rs1 imm =>
      t.pc = ((if s.params.jalrLinkFirst = true ∧ rd = rs1 ∧ rd ≠ 0#5 then s.pc + 4#32 else s.reg rs1) + imm) &&& ~~~1#32
    | .beq a b imm => t.pc = if s.reg a = s.reg b then s.pc + imm else s.pc + 4#32
    | .bne a b imm => t.pc = if s.reg a ≠ s.reg b then s.pc + imm else s.pc + 4#32
    | .blt a b imm => t.pc = if (s.reg a).toInt < (s.reg b).toInt then s.pc + imm else s.pc + 4#32
    | .bge a b imm => t.pc = if (s.reg a).toInt ≥ (s.reg b).toInt then s.pc + imm else s.pc + 4#32
    | .bltu a b imm => t.pc = if (s.reg a).toNat < (s.reg b).toNat then s.pc + imm else s.pc + 4#32
    | .bgeu a b imm => t.pc = if (s.reg a).toNat ≥ (s.reg b).toNat then s.pc + imm else s.pc + 4#32
    | _ => t.pc = s.pc + 4#32

/-- R157: with destination x0 only the write is skipped. No register changes; the pc moves as ever; a jump still checks
its alignment; a load still reads memory and still faults. -/
def Obligations.DestinationZeroSkipsOnlyTheWrite : Prop :=
  (∀ (i : Instr) (s t : State), i.dest = some 0#5 → exec i s = .next t → ∀ r, t.reg r = s.reg r) ∧
  (∀ (i : Instr) (s : State), i.dest = some 0#5 → i.loads = none → (∀ imm, i ≠ .jal 0#5 imm) →
    (∀ rs1 imm, i ≠ .jalr 0#5 rs1 imm) → OnlyJumps i s (s.pc + 4#32)) ∧
  (∀ (s : State) (imm : Word),
    (imm.toNat % 4 = 0 → OnlyJumps (.jal 0#5 imm) s (s.pc + imm)) ∧
    (imm.toNat % 4 ≠ 0 → exec (.jal 0#5 imm) s = .fault (.execute (.misalignedAddress (s.pc + imm))))) ∧
  (∀ (s : State) (rs1 : RegIdx) (imm : Word),
    let target := (s.reg rs1 + imm) &&& ~~~1#32
    (target.toNat % 4 = 0 → OnlyJumps (.jalr 0#5 rs1 imm) s target) ∧
    (target.toNat % 4 ≠ 0 → exec (.jalr 0#5 rs1 imm) s = .fault (.execute (.misalignedAddress target)))) ∧
  (∀ (s : State) (rs1 : RegIdx) (imm : Word) (w : Width) (i : Instr),
    (w, i) ∈ [(Width.byte, Instr.lb 0#5 rs1 imm), (.byte, .lbu 0#5 rs1 imm), (.half, .lh 0#5 rs1 imm),
      (.half, .lhu 0#5 rs1 imm), (.word, .lw 0#5 rs1 imm)] →
    (∀ v, s.mem.read (s.reg rs1 + imm) w = .ok v → OnlyJumps i s (s.pc + 4#32)) ∧
    (∀ e, s.mem.read (s.reg rs1 + imm) w = .error e → exec i s = .fault (.execute (.memory e))))

/-- An instruction depends on nothing but its source registers, the pc, memory and the parameters (R156, R162): two
states alike in these give the same fault, or the same pc, memory and destination value. -/
def Obligations.SourcesDetermineEffect : Prop :=
  ∀ (i : Instr) (s u : State), (∀ r ∈ i.sources, u.reg r = s.reg r) → u.pc = s.pc → u.mem = s.mem →
    u.params = s.params →
    (∀ e, exec i s = .fault e → exec i u = .fault e) ∧
    (∀ t, exec i s = .next t → ∃ v, exec i u = .next v ∧ v.pc = t.pc ∧ v.mem = t.mem ∧
      ∀ r, i.dest = some r → v.reg r = t.reg r)

/-! ## Integer computational instructions -/

/-- LUI and AUIPC (R203, R204): rd receives imm_U, or the instruction's own address plus imm_U modulo 2^32. -/
def Obligations.UpperImmediateResults : Prop :=
  ∀ (s : State) (rd : RegIdx) (imm : Word),
    Writes (.lui rd imm) s rd imm ∧
    Writes (.auipc rd imm) s rd (BitVec.ofNat 32 (s.pc.toNat + imm.toNat))

/-- ADDI, SLTI, SLTIU, XORI, ORI, ANDI (R205-R210), from the exact integers or the bits of the operands. -/
def Obligations.RegisterImmediateResults : Prop :=
  ∀ (s : State) (rd rs1 : RegIdx) (imm : Word),
    let a := s.reg rs1
    Writes (.addi rd rs1 imm) s rd (BitVec.ofInt 32 (a.toInt + imm.toInt)) ∧
    Writes (.slti rd rs1 imm) s rd (if a.toInt < imm.toInt then 1#32 else 0#32) ∧
    Writes (.sltiu rd rs1 imm) s rd (if a.toNat < imm.toNat then 1#32 else 0#32) ∧
    Writes (.xori rd rs1 imm) s rd (BitVec.ofNat 32 (a.toNat ^^^ imm.toNat)) ∧
    Writes (.ori rd rs1 imm) s rd (BitVec.ofNat 32 (a.toNat ||| imm.toNat)) ∧
    Writes (.andi rd rs1 imm) s rd (BitVec.ofNat 32 (a.toNat &&& imm.toNat))

/-- ADD, SUB, SLT, SLTU, XOR, OR, AND (R214, R215, R217-R219, R222, R223), from the exact integers or the bits of the
operands. -/
def Obligations.RegisterRegisterResults : Prop :=
  ∀ (s : State) (rd rs1 rs2 : RegIdx),
    let a := s.reg rs1
    let b := s.reg rs2
    Writes (.add rd rs1 rs2) s rd (BitVec.ofNat 32 (a.toNat + b.toNat)) ∧
    Writes (.sub rd rs1 rs2) s rd (BitVec.ofInt 32 ((a.toNat : Int) - b.toNat)) ∧
    Writes (.slt rd rs1 rs2) s rd (if a.toInt < b.toInt then 1#32 else 0#32) ∧
    Writes (.sltu rd rs1 rs2) s rd (if a.toNat < b.toNat then 1#32 else 0#32) ∧
    Writes (.xor rd rs1 rs2) s rd (BitVec.ofNat 32 (a.toNat ^^^ b.toNat)) ∧
    Writes (.or rd rs1 rs2) s rd (BitVec.ofNat 32 (a.toNat ||| b.toNat)) ∧
    Writes (.and rd rs1 rs2) s rd (BitVec.ofNat 32 (a.toNat &&& b.toNat))

/-- R202: a register shift is by x[rs2] & 0x1F, an immediate shift by the 5-bit shamt field (bits 24:20), so none is by
32 or more (32 is 0, 33 is 1); SRA and SRAI shift the signed reading of the operand. Left and right shifts are stated as
multiplication and floor division by a power of two. -/
def Obligations.ShiftsMaskTheAmount : Prop :=
  (∀ (s : State) (rd rs1 rs2 : RegIdx),
    let n := (s.reg rs2 &&& 0x1F#32).toNat
    n < 32 ∧ (s.reg rs2 = 32#32 → n = 0) ∧ (s.reg rs2 = 33#32 → n = 1) ∧
    Writes (.sll rd rs1 rs2) s rd (BitVec.ofNat 32 ((s.reg rs1).toNat * 2 ^ n)) ∧
    Writes (.srl rd rs1 rs2) s rd (BitVec.ofNat 32 ((s.reg rs1).toNat / 2 ^ n)) ∧
    Writes (.sra rd rs1 rs2) s rd (BitVec.ofInt 32 ((s.reg rs1).toInt / 2 ^ n))) ∧
  (∀ (s : State) (rd rs1 : RegIdx) (shamt : BitVec 5),
    Writes (.slli rd rs1 shamt) s rd (BitVec.ofNat 32 ((s.reg rs1).toNat * 2 ^ shamt.toNat)) ∧
    Writes (.srli rd rs1 shamt) s rd (BitVec.ofNat 32 ((s.reg rs1).toNat / 2 ^ shamt.toNat)) ∧
    Writes (.srai rd rs1 shamt) s rd (BitVec.ofInt 32 ((s.reg rs1).toInt / 2 ^ shamt.toNat))) ∧
  (∀ (w : Word) (rd rs1 : RegIdx) (shamt : BitVec 5),
    (decode w = .ok (.slli rd rs1 shamt) ∨ decode w = .ok (.srli rd rs1 shamt) ∨ decode w = .ok (.srai rd rs1 shamt)) →
    shamt = w.extractLsb' 20 5)

/-! ## Control transfer -/

/-- JAL (R241): with an immediate that is a multiple of 4 it links and jumps, wherever the target lies; otherwise it
faults with the target and changes nothing (decision D2). -/
def Obligations.JalLinksOrFaults : Prop :=
  ∀ (s : State) (rd : RegIdx) (imm : Word),
    (imm.toNat % 4 = 0 → WritesAndJumps (.jal rd imm) s rd (s.pc + 4#32) (s.pc + imm)) ∧
    (imm.toNat % 4 ≠ 0 → exec (.jal rd imm) s = .fault (.execute (.misalignedAddress (s.pc + imm))))

/-- JALR (R242): the target is base + imm with its low bit cleared; a target that is a multiple of 4 is linked and
jumped to, any other faults. The base is the old x[rs1], but pc + 4 when rd = rs1 is not x0 and jalr_link_first is set
(decision D9). -/
def Obligations.JalrLinksOrFaults : Prop :=
  ∀ (s : State) (rd rs1 : RegIdx) (imm base target : Word),
    base = (if s.params.jalrLinkFirst = true ∧ rd = rs1 ∧ rd ≠ 0#5 then s.pc + 4#32 else s.reg rs1) →
    target.toNat = (base + imm).toNat / 2 * 2 →
    (target.toNat % 4 = 0 → WritesAndJumps (.jalr rd rs1 imm) s rd (s.pc + 4#32) target) ∧
    (target.toNat % 4 ≠ 0 → exec (.jalr rd rs1 imm) s = .fault (.execute (.misalignedAddress target)))

/-- R244: every branch sets the next pc the same way, to pc + imm_B when its condition holds and to pc + 4 when not, and
writes no register and no memory. -/
def Obligations.BranchesSetThePc : Prop :=
  ∀ (s : State) (rs1 rs2 : RegIdx) (imm : Word),
    let a := s.reg rs1
    let b := s.reg rs2
    OnlyJumps (.beq rs1 rs2 imm) s (if a = b then s.pc + imm else s.pc + 4#32) ∧
    OnlyJumps (.bne rs1 rs2 imm) s (if a ≠ b then s.pc + imm else s.pc + 4#32) ∧
    OnlyJumps (.blt rs1 rs2 imm) s (if a.toInt < b.toInt then s.pc + imm else s.pc + 4#32) ∧
    OnlyJumps (.bge rs1 rs2 imm) s (if a.toInt ≥ b.toInt then s.pc + imm else s.pc + 4#32) ∧
    OnlyJumps (.bltu rs1 rs2 imm) s (if a.toNat < b.toNat then s.pc + imm else s.pc + 4#32) ∧
    OnlyJumps (.bgeu rs1 rs2 imm) s (if a.toNat ≥ b.toNat then s.pc + imm else s.pc + 4#32)

/-- R245: a taken branch uses pc + imm_B whatever its alignment; no branch faults; and the fetch at any pc reads the
four bytes there without an alignment fault. -/
def Obligations.BranchesNeverFault : Prop :=
  (∀ (s : State) (rs1 rs2 : RegIdx) (imm : Word) (i : Instr),
    i ∈ [Instr.beq rs1 rs2 imm, .bne rs1 rs2 imm, .blt rs1 rs2 imm, .bge rs1 rs2 imm, .bltu rs1 rs2 imm,
      .bgeu rs1 rs2 imm] →
    ∃ t, exec i s = .next t ∧ (t.pc = s.pc + imm ∨ t.pc = s.pc + 4#32)) ∧
  (∀ (s : State) (rs1 : RegIdx) (imm : Word), OnlyJumps (.beq rs1 rs1 imm) s (s.pc + imm)) ∧
  (∀ (s : State) (b : Nat → Byte), s.pc.toNat + 4 ≤ 2 ^ 32 →
    (∀ k < 4, s.mem.readByte (BitVec.ofNat 32 (s.pc.toNat + k)) = .ok (b k)) →
    s.fetch = .ok (b 3 ++ b 2 ++ b 1 ++ b 0))

/-! ## Loads and stores -/

/-- R261: a load reads n bytes with MemRead at x[rs1] + imm_I, extends them, writes rd and adds 4 to the pc; the memory
fault propagates as its own, whatever rd is. -/
def Obligations.LoadsReadExtendWrite : Prop :=
  ∀ (s : State) (rd rs1 : RegIdx) (imm : Word),
    let ea := s.reg rs1 + imm
    (∀ v, s.mem.read ea .byte = .ok v →
      Writes (.lb rd rs1 imm) s rd ((v.extractLsb' 0 8).signExtend 32) ∧
      Writes (.lbu rd rs1 imm) s rd (BitVec.ofNat 32 (v.toNat % 2 ^ 8))) ∧
    (∀ v, s.mem.read ea .half = .ok v →
      Writes (.lh rd rs1 imm) s rd ((v.extractLsb' 0 16).signExtend 32) ∧
      Writes (.lhu rd rs1 imm) s rd (BitVec.ofNat 32 (v.toNat % 2 ^ 16))) ∧
    (∀ v, s.mem.read ea .word = .ok v → Writes (.lw rd rs1 imm) s rd v) ∧
    (∀ e, s.mem.read ea .byte = .error e →
      exec (.lb rd rs1 imm) s = .fault (.execute (.memory e)) ∧ exec (.lbu rd rs1 imm) s = .fault (.execute (.memory e))) ∧
    (∀ e, s.mem.read ea .half = .error e →
      exec (.lh rd rs1 imm) s = .fault (.execute (.memory e)) ∧ exec (.lhu rd rs1 imm) s = .fault (.execute (.memory e))) ∧
    (∀ e, s.mem.read ea .word = .error e → exec (.lw rd rs1 imm) s = .fault (.execute (.memory e)))

/-- LB, LH, LW, LBU, LHU (R260, R264-R268) from the bytes at the effective address, at any alignment. -/
def Obligations.LoadResults : Prop :=
  ∀ (s : State) (rd rs1 : RegIdx) (imm : Word) (b : Nat → Byte),
    let ea := s.reg rs1 + imm
    let bytes := fun n => ea.toNat + n ≤ 2 ^ 32 ∧
      ∀ k < n, s.mem.readByte (BitVec.ofNat 32 (ea.toNat + k)) = .ok (b k)
    (bytes 1 → Writes (.lb rd rs1 imm) s rd ((b 0).signExtend 32) ∧
      Writes (.lbu rd rs1 imm) s rd (BitVec.ofNat 32 (b 0).toNat)) ∧
    (bytes 2 → Writes (.lh rd rs1 imm) s rd ((b 1 ++ b 0).signExtend 32) ∧
      Writes (.lhu rd rs1 imm) s rd (BitVec.ofNat 32 ((b 1).toNat * 2 ^ 8 + (b 0).toNat))) ∧
    (bytes 4 → Writes (.lw rd rs1 imm) s rd
      (BitVec.ofNat 32 ((b 3).toNat * 2 ^ 24 + (b 2).toNat * 2 ^ 16 + (b 1).toNat * 2 ^ 8 + (b 0).toNat)))

/-- SB, SH, SW (R260, R262, R269-R271): with every byte mapped, or under Discard, the store completes, adds 4 to the pc,
writes the low bytes of x[rs2] where they are mapped, and leaves every other byte and register as it was. -/
def Obligations.StoreResults : Prop :=
  ∀ (s : State) (rs1 rs2 : RegIdx) (imm : Word) (w : Width) (i : Instr),
    (w, i) ∈ [(Width.byte, Instr.sb rs1 rs2 imm), (.half, .sh rs1 rs2 imm), (.word, .sw rs1 rs2 imm)] →
    let ea := s.reg rs1 + imm
    (s.params.unmappedWrite = .discard ∨ ∀ k < w.bytes, s.mem.HasByte (ea.toNat + k)) →
    ∃ t, exec i s = .next t ∧ t.pc = s.pc + 4#32 ∧ s.StoresOnly t ea w.bytes ∧
      ∀ k < w.bytes, s.mem.HasByte (ea.toNat + k) →
        t.mem.readByte (BitVec.ofNat 32 (ea.toNat + k)) = .ok ((s.reg rs2).extractLsb' (8 * k) 8)

/-- SB, SH, SW under Fault with a byte missing (R262, decision D2): the fault names the lowest missing byte. -/
def Obligations.StoreFaults : Prop :=
  ∀ (s : State) (rs1 rs2 : RegIdx) (imm : Word) (w : Width) (i : Instr),
    (w, i) ∈ [(Width.byte, Instr.sb rs1 rs2 imm), (.half, .sh rs1 rs2 imm), (.word, .sw rs1 rs2 imm)] →
    s.params.unmappedWrite = .fault → ∀ k, s.mem.LowestMissing (s.reg rs1 + imm) w.bytes k →
    exec i s = .fault (.execute (.memory (.unmappedRegion (BitVec.ofNat 32 ((s.reg rs1 + imm).toNat + k)))))

/-- Fetch is coherent with stores without any fence (R73): a word stored by SW is what a fetch at its address reads
next. -/
def Obligations.StoredWordIsFetched : Prop :=
  ∀ (s : State) (rs1 rs2 : RegIdx) (imm : Word),
    (∀ k < 4, s.mem.HasByte ((s.reg rs1 + imm).toNat + k)) →
    ∃ t, exec (.sw rs1 rs2 imm) s = .next t ∧ ∀ u : State, u.mem = t.mem → u.pc = s.reg rs1 + imm →
      u.fetch = .ok (s.reg rs2)

/-! ## Fences, halts and CSR instructions -/

/-- FENCE, FENCE.I and the six CSR instructions change nothing but the pc, which is 4 further; rd is not written
(R280, R281, R284-R289; decisions D8 and D21). -/
def Obligations.PlaceholdersOnlyAdvance : Prop :=
  ∀ (s : State) (rd rs1 : RegIdx) (pred succ : BitVec 4) (uimm : BitVec 5) (csr : BitVec 12),
    exec (.fence pred succ) s = .next { s with pc := s.pc + 4#32 } ∧
    exec .fenceI s = .next { s with pc := s.pc + 4#32 } ∧
    exec (.csrrw rd rs1 csr) s = .next { s with pc := s.pc + 4#32 } ∧
    exec (.csrrs rd rs1 csr) s = .next { s with pc := s.pc + 4#32 } ∧
    exec (.csrrc rd rs1 csr) s = .next { s with pc := s.pc + 4#32 } ∧
    exec (.csrrwi rd uimm csr) s = .next { s with pc := s.pc + 4#32 } ∧
    exec (.csrrsi rd uimm csr) s = .next { s with pc := s.pc + 4#32 } ∧
    exec (.csrrci rd uimm csr) s = .next { s with pc := s.pc + 4#32 }

/-- ECALL and EBREAK (R282, R283): the pc is 4 further, the status halts, and nothing else changes. That the status is
kept in the run-state at once is the model's convention (log 2). -/
def Obligations.EnvironmentHalts : Prop :=
  ∀ s : State,
    exec .ecall s = .next { s with pc := s.pc + 4#32, run := .halted .ecall } ∧
    exec .ebreak s = .next { s with pc := s.pc + 4#32, run := .halted .ebreak }

/-- R310: ECALL and EBREAK are the only halts; their step adds 4 to the pc and writes nothing else, whatever the
registers hold, and run() then returns with the run-state Halted. The started mark is the model's own (log 4). -/
def Obligations.HaltsEndTheRun : Prop :=
  (∀ (s : State) (word : Word) (r : HaltReason),
    (word, r) ∈ [(0x00000073#32, HaltReason.ecall), (0x00100073#32, .ebreak)] → s.fetch = .ok word →
    ∃ t : State, t = { s with pc := s.pc + 4#32, run := .halted r, started := true } ∧ step s = .next t ∧
      (s.run = .running → ∀ k, s.runToEnd (k + 1) = some t)) ∧
  (∀ s t : State, step s = .next t → t.run ≠ .running → s.fetch = .ok 0x00000073#32 ∨ s.fetch = .ok 0x00100073#32)

/-! ## Runs, launch and reset -/

/-- run() (R164, decision D12): with enough fuel (log 7) it returns the state after the first steps that end in a halt or
a fault, none when the run-state is terminal already; without, it has not returned. -/
def Obligations.RunStopsAtFirstTerminal : Prop :=
  ∀ (s t : State) (fuel : Nat),
    s.runToEnd fuel = some t ↔
      ∃ j ≤ fuel, t = s.afterSteps j ∧ t.run ≠ .running ∧ ∀ i < j, (s.afterSteps i).run = .running

/-- run_for_steps(n) (R165, decision D12): it answers None and changes nothing for n = 0; one more step is taken from
where the last ended, whatever that step's outcome; the run-state is the last outcome's. -/
def Obligations.BoundedRunSteps : Prop :=
  ∀ (s : State) (n : Nat),
    s.runForSteps 0 = (s, none) ∧
    ∃ o, s.runForSteps (n + 1) = ((s.runForSteps n).1.afterStep, some o) ∧
      (s.runForSteps n).1.afterStep.run = o.runState ∧
      (∀ t, step (s.runForSteps n).1 = .next t → (s.runForSteps n).1.afterStep = t) ∧
      (∀ e, step (s.runForSteps n).1 = .fault e → o = .fault e)

/-- A valid launch is accepted (R343, decisions D10 and D19). -/
def Obligations.ValidLaunchAccepted : Prop :=
  ∀ (l : Launch) (p : Params),
    (∀ q ∈ l.segments, 1 ≤ q.2 ∧ q.1.toNat + q.2 ≤ 2 ^ 32) →
    l.segments.Pairwise (fun q r => ¬ (q.1.toNat < r.1.toNat + r.2 ∧ r.1.toNat < q.1.toNat + q.2)) →
    (∀ c ∈ l.bytes, ∃ q ∈ l.segments, q.1.toNat ≤ c.1.toNat ∧ c.1.toNat < q.1.toNat + q.2) →
    ∃ t, l.state p = .next t

/-- The state a launch builds (R342, decision D19): its segments and no others, the last byte written at each address
or 0x00, its registers and entry point, Running; and no launch ends in a fault. -/
def Obligations.LaunchStateIsBuilt : Prop :=
  ∀ (l : Launch) (p : Params),
    (∀ e, l.state p ≠ .fault e) ∧
    ∀ t, l.state p = .next t →
      t.Inv ∧ t.regs = l.regs ∧ t.pc = l.pc0 ∧ t.run = .running ∧ t.params = p ∧ t.started = false ∧
      (∀ g : Segment, g ∈ t.mem.segs ↔ (g.base, g.size) ∈ l.segments) ∧
      (∀ a : Word, t.mem.HasByte a.toNat → t.mem.readByte a =
        .ok (((l.bytes.reverse.find? (fun c => c.1 == a)).map (fun c => c.2)).getD 0#8))

/-- The canonical form of the segment map (R34, R53, log 5) is kept by every step, in every state, and so by any number
of steps. -/
def Obligations.StepsKeepMemoryCanonical : Prop :=
  ∀ s : State, s.Inv → (∀ t, step s = .next t → t.Inv) ∧ ∀ n : Nat, (s.afterSteps n).Inv

/-- The state after reset has a canonical memory. -/
def Obligations.ResetMemoryCanonical : Prop := State.reset.Inv

/-- The state after construction (R39, R340): every register and the pc 0, Running; no segments (decision D11); the
parameters' defaults of R11 (log 3) and no step taken (log 4). -/
def Obligations.ResetValues : Prop :=
  (∀ i, State.reset.reg i = 0#32) ∧ State.reset.pc = 0#32 ∧ State.reset.run = .running ∧
  (∀ x, ¬ State.reset.mem.HasByte x) ∧ State.reset.params = ⟨.fault, false⟩ ∧ State.reset.started = false

/-- With nothing mapped (decision D11) the first step after reset is a fetch fault at address 0 (R153, log 6). -/
def Obligations.ResetFetchFaults : Prop := step State.reset = .fault (.memory (.unmappedRegion 0#32))
end

