-- ==== Sys2Proof/Laws/State.lean ====
section
/-! SUPPORT. One lemma per field per named update of State, and the laws of the register ports. -/

namespace Sys2Proof.Machine

open Sys2Proof

/-! setPc -/

@[simp] theorem State.setPc_regs (s : State) (v : Word) : (s.setPc v).regs = s.regs := rfl
@[simp] theorem State.setPc_pc (s : State) (v : Word) : (s.setPc v).pc = v := rfl
@[simp] theorem State.setPc_mem (s : State) (v : Word) : (s.setPc v).mem = s.mem := rfl
@[simp] theorem State.setPc_run (s : State) (v : Word) : (s.setPc v).run = s.run := rfl
@[simp] theorem State.setPc_params (s : State) (v : Word) : (s.setPc v).params = s.params := rfl
@[simp] theorem State.setPc_started (s : State) (v : Word) : (s.setPc v).started = s.started := rfl
@[simp] theorem State.setPc_reg (s : State) (v : Word) (i : RegIdx) : (s.setPc v).reg i = s.reg i := rfl

/-! incrementPc -/

@[simp] theorem State.incrementPc_regs (s : State) : (s.incrementPc).regs = s.regs := rfl
@[simp] theorem State.incrementPc_pc (s : State) : (s.incrementPc).pc = s.pc + 4#32 := rfl
@[simp] theorem State.incrementPc_mem (s : State) : (s.incrementPc).mem = s.mem := rfl
@[simp] theorem State.incrementPc_run (s : State) : (s.incrementPc).run = s.run := rfl
@[simp] theorem State.incrementPc_params (s : State) : (s.incrementPc).params = s.params := rfl
@[simp] theorem State.incrementPc_started (s : State) : (s.incrementPc).started = s.started := rfl
@[simp] theorem State.incrementPc_reg (s : State) (i : RegIdx) : (s.incrementPc).reg i = s.reg i := rfl

/-! addToPc -/

@[simp] theorem State.addToPc_regs (s : State) (d : Word) : (s.addToPc d).regs = s.regs := rfl
@[simp] theorem State.addToPc_pc (s : State) (d : Word) : (s.addToPc d).pc = s.pc + d := rfl
@[simp] theorem State.addToPc_mem (s : State) (d : Word) : (s.addToPc d).mem = s.mem := rfl
@[simp] theorem State.addToPc_run (s : State) (d : Word) : (s.addToPc d).run = s.run := rfl
@[simp] theorem State.addToPc_params (s : State) (d : Word) : (s.addToPc d).params = s.params := rfl
@[simp] theorem State.addToPc_started (s : State) (d : Word) : (s.addToPc d).started = s.started := rfl
@[simp] theorem State.addToPc_reg (s : State) (d : Word) (i : RegIdx) : (s.addToPc d).reg i = s.reg i := rfl

/-! halt -/

@[simp] theorem State.halt_regs (s : State) (r : HaltReason) : (s.halt r).regs = s.regs := rfl
@[simp] theorem State.halt_pc (s : State) (r : HaltReason) : (s.halt r).pc = s.pc := rfl
@[simp] theorem State.halt_mem (s : State) (r : HaltReason) : (s.halt r).mem = s.mem := rfl
@[simp] theorem State.halt_run (s : State) (r : HaltReason) : (s.halt r).run = .halted r := rfl
@[simp] theorem State.halt_params (s : State) (r : HaltReason) : (s.halt r).params = s.params := rfl
@[simp] theorem State.halt_started (s : State) (r : HaltReason) : (s.halt r).started = s.started := rfl
@[simp] theorem State.halt_reg (s : State) (r : HaltReason) (i : RegIdx) : (s.halt r).reg i = s.reg i := rfl

/-! takeFault -/

@[simp] theorem State.takeFault_regs (s : State) (e : Fault) : (s.takeFault e).regs = s.regs := rfl
@[simp] theorem State.takeFault_pc (s : State) (e : Fault) : (s.takeFault e).pc = s.pc := rfl
@[simp] theorem State.takeFault_mem (s : State) (e : Fault) : (s.takeFault e).mem = s.mem := rfl
@[simp] theorem State.takeFault_run (s : State) (e : Fault) : (s.takeFault e).run = .faulted e := rfl
@[simp] theorem State.takeFault_params (s : State) (e : Fault) : (s.takeFault e).params = s.params := rfl
@[simp] theorem State.takeFault_started (s : State) (e : Fault) : (s.takeFault e).started = true := rfl
@[simp] theorem State.takeFault_reg (s : State) (e : Fault) (i : RegIdx) : (s.takeFault e).reg i = s.reg i := rfl

/-! beginStep -/

@[simp] theorem State.beginStep_regs (s : State) : (s.beginStep).regs = s.regs := rfl
@[simp] theorem State.beginStep_pc (s : State) : (s.beginStep).pc = s.pc := rfl
@[simp] theorem State.beginStep_mem (s : State) : (s.beginStep).mem = s.mem := rfl
@[simp] theorem State.beginStep_run (s : State) : (s.beginStep).run = .running := rfl
@[simp] theorem State.beginStep_params (s : State) : (s.beginStep).params = s.params := rfl
@[simp] theorem State.beginStep_started (s : State) : (s.beginStep).started = true := rfl
@[simp] theorem State.beginStep_reg (s : State) (i : RegIdx) : (s.beginStep).reg i = s.reg i := rfl

/-! setReg -/

@[simp] theorem State.setReg_pc (s : State) (i : RegIdx) (v : Word) : (s.setReg i v).pc = s.pc := by
  unfold State.setReg; split <;> rfl
@[simp] theorem State.setReg_mem (s : State) (i : RegIdx) (v : Word) : (s.setReg i v).mem = s.mem := by
  unfold State.setReg; split <;> rfl
@[simp] theorem State.setReg_run (s : State) (i : RegIdx) (v : Word) : (s.setReg i v).run = s.run := by
  unfold State.setReg; split <;> rfl
@[simp] theorem State.setReg_params (s : State) (i : RegIdx) (v : Word) : (s.setReg i v).params = s.params := by
  unfold State.setReg; split <;> rfl
@[simp] theorem State.setReg_started (s : State) (i : RegIdx) (v : Word) : (s.setReg i v).started = s.started := by
  unfold State.setReg; split <;> rfl

/-- A memory replaced leaves the registers. -/
@[simp] theorem State.withMem_reg (s : State) (m : Memory) (i : RegIdx) : ({ s with mem := m } : State).reg i = s.reg i := rfl

/-- x0 reads 0 (R21). -/
@[simp] theorem State.reg_zero (s : State) : s.reg 0#5 = 0#32 := rfl

/-- A write to x0 changes nothing (R22). -/
@[simp] theorem State.setReg_zero (s : State) (v : Word) : s.setReg 0#5 v = s := rfl

theorem State.reg_of_ne (s : State) {i : RegIdx} (h : i ≠ 0#5) : s.reg i = s.regs[i.toNat - 1]'(regSlot_lt h) :=
  dif_neg h

theorem State.setReg_of_ne (s : State) {i : RegIdx} (h : i ≠ 0#5) (v : Word) :
    s.setReg i v = { s with regs := s.regs.set (i.toNat - 1) v (regSlot_lt h) } := dif_neg h

/-- Reading a register after writing it: the value, or 0 for x0. -/
theorem State.reg_setReg_same (s : State) (i : RegIdx) (v : Word) :
    (s.setReg i v).reg i = if i = 0#5 then 0#32 else v := by
  by_cases h : i = 0#5
  · subst h; rfl
  · rw [State.setReg_of_ne s h, State.reg_of_ne _ h, if_neg h, Vector.getElem_set_self]

/-- Two register numbers other than 0 that share a slot are equal. -/
theorem regSlot_inj {i j : RegIdx} (hi : i ≠ 0#5) (hj : j ≠ 0#5) (h : i.toNat - 1 = j.toNat - 1) : i = j := by
  have hi' : i.toNat ≠ 0 := fun e => hi (BitVec.eq_of_toNat_eq e)
  have hj' : j.toNat ≠ 0 := fun e => hj (BitVec.eq_of_toNat_eq e)
  exact BitVec.eq_of_toNat_eq (by omega)

/-- Reading another register after a write. -/
theorem State.reg_setReg_other (s : State) {i j : RegIdx} (v : Word) (h : j ≠ i) : (s.setReg i v).reg j = s.reg j := by
  by_cases hi : i = 0#5
  · subst hi; rfl
  by_cases hj : j = 0#5
  · subst hj; rfl
  have hne : i.toNat - 1 ≠ j.toNat - 1 := fun e => h (regSlot_inj hi hj e).symm
  rw [State.setReg_of_ne s hi, State.reg_of_ne _ hj, State.reg_of_ne _ hj]
  exact Vector.getElem_set_ne (regSlot_lt hi) (regSlot_lt hj) hne

/-- Two register files that read alike are equal. -/
theorem State.regs_ext {s t : State} (h : ∀ i, s.reg i = t.reg i) : s.regs = t.regs := by
  apply Vector.ext
  intro k hk
  have hlt : k + 1 < 2 ^ 5 := by omega
  have ht : (BitVec.ofNat 5 (k + 1)).toNat = k + 1 := by
    rw [BitVec.toNat_ofNat, Nat.mod_eq_of_lt hlt]
  have hne : BitVec.ofNat 5 (k + 1) ≠ 0#5 := fun e => by
    have := congrArg BitVec.toNat e
    rw [ht] at this
    simp at this
  have := h (BitVec.ofNat 5 (k + 1))
  rw [State.reg_of_ne _ hne, State.reg_of_ne _ hne] at this
  simpa only [ht, Nat.add_sub_cancel] using this

end Sys2Proof.Machine
end

