-- ==== Sys2Proof/Laws/Memory.lean ====
section
/-! SUPPORT. The laws of the memory_controller: read after write, what MemRead and MemWrite can answer, and that every
operation keeps the canonical form `Memory.wf`. -/

namespace Sys2Proof.Machine

open Sys2Proof

/-! ## Cells -/

theorem cellErase_cons (c : Host.Cell) (t : List Host.Cell) (a : Nat) :
    cellErase (c :: t) a = if c.1 = a then cellErase t a else c :: cellErase t a := by
  by_cases h : c.1 = a <;> simp [cellErase, h]

theorem cellAt_cons (c : Host.Cell) (t : List Host.Cell) (a : Nat) :
    cellAt (c :: t) a = if c.1 = a then c.2 else cellAt t a := rfl

theorem cellAt_erase_same (l : List Host.Cell) (a : Nat) : cellAt (cellErase l a) a = 0#8 := by
  induction l with
  | nil => rfl
  | cons c t ih =>
    rw [cellErase_cons]
    split
    · exact ih
    · next h => rw [cellAt_cons, if_neg h, ih]

theorem cellAt_erase_other (l : List Host.Cell) {a b : Nat} (h : b ≠ a) : cellAt (cellErase l a) b = cellAt l b := by
  induction l with
  | nil => rfl
  | cons c t ih =>
    rw [cellErase_cons]
    split
    · next hc => rw [ih, cellAt_cons, if_neg (fun e => h (e.symm.trans hc))]
    · rw [cellAt_cons, cellAt_cons, ih]

theorem cellAt_insert_same (l : List Host.Cell) {a : Nat} (v : Byte) (h : ∀ c ∈ l, c.1 ≠ a) :
    cellAt (cellInsert l a v) a = v := by
  induction l with
  | nil => simp [cellInsert, cellAt]
  | cons c t ih =>
    have hc : c.1 ≠ a := h c (by simp)
    have ht := ih fun d hd => h d (by simp [hd])
    unfold cellInsert
    split
    · simp [cellAt]
    · simpa [cellAt, hc] using ht

theorem cellAt_insert_other (l : List Host.Cell) {a b : Nat} (v : Byte) (h : b ≠ a) :
    cellAt (cellInsert l a v) b = cellAt l b := by
  induction l with
  | nil => simp [cellInsert, cellAt, h.symm]
  | cons c t ih =>
    unfold cellInsert
    split
    · simp [cellAt, h.symm]
    · simp [cellAt, ih]

theorem cellErase_ne {l : List Host.Cell} {a : Nat} : ∀ c ∈ cellErase l a, c.1 ≠ a := by
  intro c hc
  simpa [cellErase] using (List.mem_filter.1 hc).2

/-- Read after write to the same address. -/
theorem cellAt_set_same (l : List Host.Cell) (a : Nat) (v : Byte) : cellAt (cellSet l a v) a = v := by
  unfold cellSet
  split
  · next h => rw [cellAt_erase_same, h]
  · exact cellAt_insert_same _ v cellErase_ne

/-- A write leaves every other address alone. -/
theorem cellAt_set_other (l : List Host.Cell) {a b : Nat} (v : Byte) (h : b ≠ a) :
    cellAt (cellSet l a v) b = cellAt l b := by
  unfold cellSet
  split
  · exact cellAt_erase_other l h
  · rw [cellAt_insert_other _ v h, cellAt_erase_other l h]

theorem cellInsert_mem {l : List Host.Cell} {a : Nat} {v : Byte} {c : Host.Cell} (h : c ∈ cellInsert l a v) :
    c = (a, v) ∨ c ∈ l := by
  induction l with
  | nil => simpa [cellInsert] using h
  | cons d t ih =>
    unfold cellInsert at h
    split at h
    · simpa using h
    · rcases List.mem_cons.1 h with h | h
      · exact .inr (by simp [h])
      · rcases ih h with h | h
        · exact .inl h
        · exact .inr (by simp [h])

theorem cellInsert_sorted {l : List Host.Cell} {a : Nat} {v : Byte} (hl : l.Pairwise (fun c d => c.1 < d.1))
    (h : ∀ c ∈ l, c.1 ≠ a) : (cellInsert l a v).Pairwise (fun c d => c.1 < d.1) := by
  induction l with
  | nil => simp [cellInsert]
  | cons c t ih =>
    have ⟨hc, ht⟩ := List.pairwise_cons.1 hl
    unfold cellInsert
    split
    · next hlt =>
      refine List.pairwise_cons.2 ⟨fun d hd => ?_, hl⟩
      rcases List.mem_cons.1 hd with hd | hd
      · exact hd ▸ hlt
      · exact Nat.lt_trans hlt (hc d hd)
    · next hge =>
      refine List.pairwise_cons.2 ⟨fun d hd => ?_, ih ht fun d hd => h d (by simp [hd])⟩
      rcases cellInsert_mem hd with hd | hd
      · have := h c (by simp)
        subst hd
        simp only
        omega
      · exact hc d hd

theorem cellSet_sorted {l : List Host.Cell} (a : Nat) (v : Byte) (hl : l.Pairwise (fun c d => c.1 < d.1)) :
    (cellSet l a v).Pairwise (fun c d => c.1 < d.1) := by
  unfold cellSet
  split
  · exact hl.filter _
  · exact cellInsert_sorted (hl.filter _) cellErase_ne

/-- What a set list holds: the new cell, if it is not 0x00, and old ones. -/
theorem cellSet_mem {l : List Host.Cell} {a : Nat} {v : Byte} {c : Host.Cell} (h : c ∈ cellSet l a v) :
    (c = (a, v) ∧ v ≠ 0#8) ∨ c ∈ l := by
  unfold cellSet at h
  split at h
  · exact .inr (List.mem_filter.1 h).1
  · next hv =>
    rcases cellInsert_mem h with h | h
    · exact .inl ⟨h, hv⟩
    · exact .inr (List.mem_filter.1 h).1

/-! ## Bytes -/

@[simp] theorem Memory.poke_segs (m : Memory) (a : Nat) (v : Byte) : (m.poke a v).segs = m.segs := by
  unfold Memory.poke; split <;> rfl

theorem Memory.mapped_congr {m n : Memory} (h : n.segs = m.segs) (a : Nat) : n.mapped a = m.mapped a := by
  simp [Memory.mapped, h]

@[simp] theorem Memory.poke_mapped (m : Memory) (a : Nat) (v : Byte) (b : Nat) :
    (m.poke a v).mapped b = m.mapped b := Memory.mapped_congr (Memory.poke_segs m a v) b

theorem Memory.peek_poke_same (m : Memory) {a : Nat} (v : Byte) (h : m.mapped a = true) : (m.poke a v).peek a = v := by
  simp [Memory.poke, h, Memory.peek, cellAt_set_same]

theorem Memory.peek_poke_other (m : Memory) {a b : Nat} (v : Byte) (h : b ≠ a) : (m.poke a v).peek b = m.peek b := by
  unfold Memory.poke Memory.peek
  split
  · exact cellAt_set_other _ v h
  · rfl

@[simp] theorem Memory.pokeBytes_segs (m : Memory) (a : Nat) (w : Width) (v : Word) :
    (m.pokeBytes a w v).segs = m.segs := by cases w <;> simp [Memory.pokeBytes]

@[simp] theorem Memory.pokeBytes_mapped (m : Memory) (a : Nat) (w : Width) (v : Word) (b : Nat) :
    (m.pokeBytes a w v).mapped b = m.mapped b := Memory.mapped_congr (Memory.pokeBytes_segs m a w v) b

/-- A written byte that is mapped reads as its part of the value (R60, R61). -/
theorem Memory.peek_pokeBytes_inside (m : Memory) (a : Nat) (w : Width) (v : Word) {k : Nat} (hk : k < w.bytes)
    (h : m.mapped (a + k) = true) : (m.pokeBytes a w v).peek (a + k) = byteOfWord v k := by
  cases w <;> simp only [Width.bytes] at hk
  · obtain rfl : k = 0 := by omega
    exact Memory.peek_poke_same m _ h
  · obtain rfl | rfl : k = 0 ∨ k = 1 := by omega
    · simp only [Memory.pokeBytes, Nat.add_zero]
      rw [Memory.peek_poke_other _ _ (by omega)]
      exact Memory.peek_poke_same m _ h
    · exact Memory.peek_poke_same _ _ (by simpa using h)
  · obtain rfl | rfl | rfl | rfl : k = 0 ∨ k = 1 ∨ k = 2 ∨ k = 3 := by omega
    · simp only [Memory.pokeBytes, Nat.add_zero]
      rw [Memory.peek_poke_other _ _ (by omega), Memory.peek_poke_other _ _ (by omega),
        Memory.peek_poke_other _ _ (by omega)]
      exact Memory.peek_poke_same m _ h
    · simp only [Memory.pokeBytes]
      rw [Memory.peek_poke_other _ _ (by omega), Memory.peek_poke_other _ _ (by omega)]
      exact Memory.peek_poke_same _ _ (by simpa using h)
    · simp only [Memory.pokeBytes]
      rw [Memory.peek_poke_other _ _ (by omega)]
      exact Memory.peek_poke_same _ _ (by simpa using h)
    · exact Memory.peek_poke_same _ _ (by simpa using h)

/-- A byte outside the written range is as before (R57). -/
theorem Memory.peek_pokeBytes_outside (m : Memory) (a : Nat) (w : Width) (v : Word) {b : Nat}
    (h : b < a ∨ a + w.bytes ≤ b) : (m.pokeBytes a w v).peek b = m.peek b := by
  cases w <;> simp only [Width.bytes] at h <;> simp only [Memory.pokeBytes] <;>
    repeat rw [Memory.peek_poke_other _ _ (by omega)]

/-! ## firstUnmapped -/

/-- It answers none exactly when every byte of the access is mapped. -/
theorem Memory.firstUnmapped_none {m : Memory} {a n : Nat} :
    m.firstUnmapped a n = none ↔ ∀ k < n, m.mapped (a + k) = true := by
  induction n generalizing a with
  | zero => simp [Memory.firstUnmapped]
  | succ n ih =>
    unfold Memory.firstUnmapped
    split
    · next h =>
      rw [ih]
      constructor
      · intro hs k hk
        cases k with
        | zero => exact h
        | succ k => have := hs k (by omega); rwa [Nat.add_right_comm] at this
      · intro hs k hk
        have := hs (k + 1) (by omega)
        rwa [← Nat.add_assoc, Nat.add_right_comm] at this
    · next h =>
      simp only [reduceCtorEq, false_iff, not_forall]
      exact ⟨0, by omega, h⟩

/-- It answers the lowest unmapped byte of the access (R59). -/
theorem Memory.firstUnmapped_some {m : Memory} {a n x : Nat} :
    m.firstUnmapped a n = some x ↔
      ∃ k < n, x = a + k ∧ m.mapped (a + k) = false ∧ ∀ j < k, m.mapped (a + j) = true := by
  induction n generalizing a with
  | zero => simp [Memory.firstUnmapped]
  | succ n ih =>
    unfold Memory.firstUnmapped
    split
    · next h =>
      rw [ih]
      constructor
      · rintro ⟨k, hk, hx, hu, hl⟩
        refine ⟨k + 1, by omega, by omega, by rw [← hu]; congr 1; omega, ?_⟩
        intro j hj
        cases j with
        | zero => exact h
        | succ j => have := hl j (by omega); rwa [Nat.add_right_comm] at this
      · rintro ⟨k, hk, hx, hu, hl⟩
        cases k with
        | zero => rw [Nat.add_zero] at hu; simp [hu] at h
        | succ k =>
          refine ⟨k, by omega, by omega, by rw [← hu]; congr 1; omega, fun j hj => ?_⟩
          have := hl (j + 1) (by omega)
          rwa [← Nat.add_assoc, Nat.add_right_comm] at this
    · next h =>
      have h' : m.mapped a = false := by simpa using h
      constructor
      · intro e
        exact ⟨0, by omega, by simpa using e.symm, h', by omega⟩
      · rintro ⟨k, -, hx, -, hl⟩
        cases k with
        | zero => simp [hx]
        | succ k => exact absurd (hl 0 (by omega)) h

theorem Memory.firstUnmapped_congr {m n : Memory} (h : n.segs = m.segs) (a k : Nat) :
    n.firstUnmapped a k = m.firstUnmapped a k := by
  induction k generalizing a with
  | zero => rfl
  | succ k ih => simp [Memory.firstUnmapped, ih, Memory.mapped_congr h]

/-! ## MemRead and MemWrite -/

/-- Everything MemRead can answer (R59). -/
theorem Memory.read_cases (m : Memory) (a : Word) (w : Width) :
    ((∀ k < w.bytes, m.mapped (a.toNat + k) = true) ∧ m.read a w = .ok (m.peekBytes a.toNat w)) ∨
    (∃ k < w.bytes, m.mapped (a.toNat + k) = false ∧ (∀ j < k, m.mapped (a.toNat + j) = true) ∧
      m.read a w = .error (unmappedAt (a.toNat + k))) := by
  unfold Memory.read
  cases h : m.firstUnmapped a.toNat w.bytes with
  | none => exact .inl ⟨Memory.firstUnmapped_none.1 h, rfl⟩
  | some x =>
    obtain ⟨k, hk, rfl, hu, hl⟩ := Memory.firstUnmapped_some.1 h
    exact .inr ⟨k, hk, hu, hl, rfl⟩

/-- MemRead with every byte mapped. -/
theorem Memory.read_ok {m : Memory} {a : Word} {w : Width} (h : ∀ k < w.bytes, m.mapped (a.toNat + k) = true) :
    m.read a w = .ok (m.peekBytes a.toNat w) := by
  simp [Memory.read, Memory.firstUnmapped_none.2 h]

/-- MemRead with an unmapped byte: the lowest one's address. -/
theorem Memory.read_error {m : Memory} {a : Word} {w : Width} {k : Nat} (hk : k < w.bytes)
    (hu : m.mapped (a.toNat + k) = false) (hl : ∀ j < k, m.mapped (a.toNat + j) = true) :
    m.read a w = .error (unmappedAt (a.toNat + k)) := by
  simp [Memory.read, Memory.firstUnmapped_some.2 ⟨k, hk, rfl, hu, hl⟩]

/-- Everything MemWrite can answer (R60, R61). -/
theorem Memory.write_cases (m : Memory) (mode : UnmappedWrite) (a : Word) (w : Width) (v : Word) :
    ((mode = .discard ∨ ∀ k < w.bytes, m.mapped (a.toNat + k) = true) ∧
      m.write mode a w v = .ok (m.pokeBytes a.toNat w v)) ∨
    (mode = .fault ∧ ∃ k < w.bytes, m.mapped (a.toNat + k) = false ∧ (∀ j < k, m.mapped (a.toNat + j) = true) ∧
      m.write mode a w v = .error (unmappedAt (a.toNat + k))) := by
  unfold Memory.write
  cases mode with
  | discard => exact .inl ⟨.inl rfl, rfl⟩
  | fault =>
    cases h : m.firstUnmapped a.toNat w.bytes with
    | none => exact .inl ⟨.inr (Memory.firstUnmapped_none.1 h), rfl⟩
    | some x =>
      obtain ⟨k, hk, rfl, hu, hl⟩ := Memory.firstUnmapped_some.1 h
      exact .inr ⟨rfl, k, hk, hu, hl, rfl⟩

/-- A successful MemWrite leaves the written bytes, whatever the mode. -/
theorem Memory.write_ok {m n : Memory} {mode : UnmappedWrite} {a : Word} {w : Width} {v : Word}
    (h : m.write mode a w v = .ok n) : n = m.pokeBytes a.toNat w v := by
  rcases m.write_cases mode a w v with ⟨-, e⟩ | ⟨-, k, -, -, -, e⟩
  · rw [e] at h; exact (Except.ok.inj h).symm
  · rw [e] at h; cases h

/-! ## The canonical form -/

theorem Memory.wf_poke {m : Memory} (h : m.wf) (a : Nat) (v : Byte) : (m.poke a v).wf := by
  unfold Memory.poke
  split
  · next hm =>
    obtain ⟨h1, h2, h3, h4⟩ := h
    refine ⟨h1, h2, cellSet_sorted a v h3, fun c hc => ?_⟩
    rcases cellSet_mem hc with ⟨rfl, hv⟩ | hc
    · exact ⟨hv, hm⟩
    · exact h4 c hc
  · exact h

/-- Writing any bytes keeps the canonical form. -/
theorem Memory.wf_pokeBytes {m : Memory} (h : m.wf) (a : Nat) (w : Width) (v : Word) : (m.pokeBytes a w v).wf := by
  cases w <;> simp only [Memory.pokeBytes] <;> repeat apply Memory.wf_poke
  all_goals exact h

/-- MemWrite keeps the canonical form. -/
theorem Memory.wf_write {m n : Memory} {mode : UnmappedWrite} {a : Word} {w : Width} {v : Word} (h : m.wf)
    (e : m.write mode a w v = .ok n) : n.wf := Memory.write_ok e ▸ Memory.wf_pokeBytes h _ _ _

/-- In canonical form an unmapped address has no data byte. -/
theorem Memory.peek_unmapped {m : Memory} (h : m.wf) {a : Nat} (hu : m.mapped a = false) : m.peek a = 0#8 := by
  have hc : ∀ l : List Host.Cell, (∀ c ∈ l, m.mapped c.1 = true) → cellAt l a = 0#8 := by
    intro l
    induction l with
    | nil => exact fun _ => rfl
    | cons c t ih =>
      intro hl
      have hne : c.1 ≠ a := fun e => by simpa [e, hu] using hl c (by simp)
      rw [cellAt_cons, if_neg hne]
      exact ih fun d hd => hl d (by simp [hd])
  exact hc m.cells fun c hc' => (h.2.2.2 c hc').2

theorem segInsert_mem {l : List Segment} {g h : Segment} : h ∈ segInsert l g ↔ h = g ∨ h ∈ l := by
  induction l with
  | nil => simp [segInsert]
  | cons c t ih =>
    unfold segInsert
    split
    · simp
    · simp only [List.mem_cons, ih]
      tauto

theorem segInsert_sorted {l : List Segment} {g : Segment}
    (hl : l.Pairwise (fun g h => g.base.toNat + g.size ≤ h.base.toNat)) (hv : ∀ h ∈ l, h.valid = true)
    (hg : g.valid = true) (hd : ∀ h ∈ l, h.intersects g = false) :
    (segInsert l g).Pairwise (fun g h => g.base.toNat + g.size ≤ h.base.toNat) := by
  induction l with
  | nil => simp [segInsert]
  | cons c t ih =>
    have ⟨hc, ht⟩ := List.pairwise_cons.1 hl
    have hcg := hd c (by simp)
    have hcv := hv c (by simp)
    simp only [Segment.intersects, Segment.valid, decide_eq_true_eq, decide_eq_false_iff_not] at hcg hcv hg
    unfold segInsert
    split
    · next hlt =>
      refine List.pairwise_cons.2 ⟨fun d hd' => ?_, hl⟩
      rcases List.mem_cons.1 hd' with rfl | hd'
      · omega
      · have := hc d hd'; omega
    · next hge =>
      refine List.pairwise_cons.2 ⟨fun d hd' => ?_, ih ht (fun h hh => hv h (by simp [hh])) fun h hh => hd h (by simp [hh])⟩
      rcases segInsert_mem.1 hd' with rfl | hd'
      · omega
      · exact hc d hd'

/-- A segment added maps its own addresses besides the old ones. -/
theorem Memory.mapped_addRange (m : Memory) (g : Segment) (a : Nat) :
    (m.addRange g).mapped a = (m.mapped a || (decide (a < 2 ^ 32) && g.covers a)) := by
  have h : (segInsert m.segs g).any (fun g => g.covers a) = (g.covers a || m.segs.any fun g => g.covers a) := by
    rw [Bool.eq_iff_iff]
    simp [segInsert_mem]
  simp only [Memory.mapped, Memory.addRange, h]
  cases decide (a < 2 ^ 32) <;> cases g.covers a <;> simp

/-- Adding a valid range that intersects none keeps the canonical form. -/
theorem Memory.wf_addRange {m : Memory} (h : m.wf) {g : Segment} (hg : g.valid = true)
    (hd : ∀ h ∈ m.segs, h.intersects g = false) : (m.addRange g).wf := by
  obtain ⟨h1, h2, h3, h4⟩ := h
  refine ⟨segInsert_sorted h1 h2 hg hd, fun x hx => ?_, h3, fun c hc => ⟨(h4 c hc).1, ?_⟩⟩
  · rcases segInsert_mem.1 hx with rfl | hx
    · exact hg
    · exact h2 x hx
  · rw [Memory.mapped_addRange, (h4 c hc).2, Bool.true_or]

/-- `add_segment` keeps the canonical form. -/
theorem State.addSegment_wf {s t : State} {base : Word} {size : Nat} (h : s.mem.wf)
    (e : s.addSegment base size = .next t) : t.mem.wf := by
  unfold State.addSegment at e
  split at e
  · cases e
  split at e
  · cases e
  split at e
  · cases e
  · next hv hd =>
    cases e
    refine Memory.wf_addRange h (by simpa using hv) fun g hg => ?_
    simp only [List.any_eq_true, not_exists, not_and, Bool.not_eq_true] at hd
    exact hd g hg

/-- The memory after reset is in canonical form. -/
theorem State.reset_mem_wf : State.reset.mem.wf := by decide

/-- Making a byte mapped maps that byte and no other. -/
theorem Memory.mapped_ensureMapped (m : Memory) (a : Nat) {b : Nat} (h : b < 2 ^ 32) :
    (m.ensureMapped b).mapped a = (m.mapped a || decide (a = b)) := by
  unfold Memory.ensureMapped
  split
  · next h' =>
    have hm : m.mapped b = true := by
      simp only [Bool.or_eq_true, decide_eq_true_eq] at h'
      exact h'.resolve_right (by omega)
    by_cases e : a = b
    · simp [e, hm]
    · simp [e]
  · rw [Memory.mapped_addRange]
    simp only [Segment.covers, BitVec.toNat_ofNat, Nat.mod_eq_of_lt h]
    congr 1
    rw [Bool.eq_iff_iff]
    simp only [Bool.and_eq_true, decide_eq_true_eq]
    omega

@[simp] theorem Memory.ensureMapped_peek (m : Memory) (a b : Nat) : (m.ensureMapped b).peek a = m.peek a := by
  unfold Memory.ensureMapped; split <;> rfl

/-- A byte added for placing a word keeps the canonical form. -/
theorem Memory.wf_ensureMapped {m : Memory} (h : m.wf) (a : Nat) : (m.ensureMapped a).wf := by
  unfold Memory.ensureMapped
  split
  · exact h
  · next hm =>
    simp only [Bool.or_eq_true, not_or, Bool.not_eq_true, decide_eq_true_eq, Nat.not_le] at hm
    obtain ⟨hu, ha⟩ := hm
    have hn : (BitVec.ofNat 32 a).toNat = a := by rw [BitVec.toNat_ofNat, Nat.mod_eq_of_lt ha]
    refine Memory.wf_addRange h ?_ fun g hg => ?_
    · simp only [Segment.valid, hn, decide_eq_true_eq]; omega
    · simp only [Memory.mapped, ha, decide_true, Bool.true_and, List.any_eq_false] at hu
      have := hu g hg
      simp only [Segment.covers, decide_eq_true_eq] at this
      simp only [Segment.intersects, hn, decide_eq_false_iff_not]
      omega

end Sys2Proof.Machine
end

