-- ==== Sys2Proof/Laws/Effects.lean ====
section
/-! SUPPORT. One lemma per shared operation of Machine/Operands.lean, saying once everything it can do, and the shape of
every instruction's meaning. -/

namespace Sys2Proof.Machine

open Sys2Proof

/-- A byte is mapped exactly when it exists (R55, R58). -/
theorem Memory.mapped_iff (m : Memory) (x : Nat) : m.mapped x = true ↔ m.HasByte x := by
  simp [Memory.mapped, Memory.HasByte, Segment.covers]

theorem Memory.unmapped_iff (m : Memory) (x : Nat) : m.mapped x = false ↔ ¬ m.HasByte x := by
  rw [← Memory.mapped_iff, Bool.not_eq_true]

/-- The lowest missing byte, in terms of `Memory.mapped`. -/
theorem Memory.lowestMissing_iff (m : Memory) (a : Word) (n k : Nat) :
    m.LowestMissing a n k ↔
      k < n ∧ m.mapped (a.toNat + k) = false ∧ ∀ j < k, m.mapped (a.toNat + j) = true := by
  simp only [Memory.LowestMissing, Memory.mapped_iff, Memory.unmapped_iff]

/-- Reading one byte answers its value exactly when it is mapped (R56). -/
theorem Memory.readByte_ok {m : Memory} {a : Word} {b : Byte} :
    m.readByte a = .ok b ↔ m.mapped a.toNat = true ∧ m.peek a.toNat = b := by
  unfold Memory.readByte
  split
  · next h => simp [h]
  · next h => simp [h]

theorem State.retire_spec (s : State) (rd : RegIdx) (v : Word) :
    ∃ t, s.retire rd v = .next t ∧ s.WritesOnly t rd v ∧ t.pc = s.pc + 4#32 :=
  ⟨_, rfl, ⟨s.reg_setReg_same rd v, fun _ h => s.reg_setReg_other v h, by simp [State.SameRest]⟩, by simp⟩

theorem State.jumpAndLink_spec (s : State) (rd : RegIdx) (target : Word) :
    ∃ t, s.jumpAndLink rd target = .next t ∧ s.WritesOnly t rd (s.pc + 4#32) ∧ t.pc = target :=
  ⟨_, rfl, ⟨s.reg_setReg_same rd _, fun _ h => s.reg_setReg_other _ h, by simp [State.SameRest]⟩, by simp⟩

theorem State.branch_spec (s : State) (taken : Bool) (imm : Word) :
    ∃ t, s.branch taken imm = .next t ∧ s.PcOnly t ∧ t.pc = if taken then s.pc + imm else s.pc + 4#32 := by
  refine ⟨_, rfl, ?_, ?_⟩ <;> cases taken <;> simp [State.PcOnly, State.SameRest]

theorem State.onlyAdvance_spec (s : State) :
    ∃ t, s.onlyAdvance = .next t ∧ s.PcOnly t ∧ t.pc = s.pc + 4#32 :=
  ⟨_, rfl, by simp [State.PcOnly, State.SameRest], by simp⟩

theorem State.haltWith_spec (s : State) (r : HaltReason) :
    s.haltWith r = .next { s with pc := s.pc + 4#32, run := .halted r } := rfl

/-- Everything a load can do (R261). -/
theorem State.load_cases (s : State) (w : Width) (e : Extension) (rd rs1 : RegIdx) (imm : Word) :
    ((∀ k < w.bytes, s.mem.mapped ((s.effAddr rs1 imm).toNat + k) = true) ∧
      s.load w e rd rs1 imm = s.retire rd (extendLoaded w e (s.mem.peekBytes (s.effAddr rs1 imm).toNat w))) ∨
    (∃ k < w.bytes, s.mem.mapped ((s.effAddr rs1 imm).toNat + k) = false ∧
      (∀ j < k, s.mem.mapped ((s.effAddr rs1 imm).toNat + j) = true) ∧
      s.load w e rd rs1 imm = raise (.memory (unmappedAt ((s.effAddr rs1 imm).toNat + k)))) := by
  rcases s.mem.read_cases (s.effAddr rs1 imm) w with ⟨h, e'⟩ | ⟨k, hk, hu, hl, e'⟩
  · exact .inl ⟨h, by simp [State.load, e']⟩
  · exact .inr ⟨k, hk, hu, hl, by simp [State.load, e']⟩

/-- Everything a store can do (R262). -/
theorem State.store_cases (s : State) (w : Width) (rs1 rs2 : RegIdx) (imm : Word) :
    ((s.params.unmappedWrite = .discard ∨ ∀ k < w.bytes, s.mem.mapped ((s.effAddr rs1 imm).toNat + k) = true) ∧
      s.store w rs1 rs2 imm = .next ({ s with mem := s.mem.pokeBytes (s.effAddr rs1 imm).toNat w (s.reg rs2) } :
        State).incrementPc) ∨
    (s.params.unmappedWrite = .fault ∧ ∃ k < w.bytes, s.mem.mapped ((s.effAddr rs1 imm).toNat + k) = false ∧
      (∀ j < k, s.mem.mapped ((s.effAddr rs1 imm).toNat + j) = true) ∧
      s.store w rs1 rs2 imm = raise (.memory (unmappedAt ((s.effAddr rs1 imm).toNat + k)))) := by
  rcases s.mem.write_cases s.params.unmappedWrite (s.effAddr rs1 imm) w (s.reg rs2) with
    ⟨h, e⟩ | ⟨hm, k, hk, hu, hl, e⟩
  · exact .inl ⟨h, by simp [State.store, e]⟩
  · exact .inr ⟨hm, k, hk, hu, hl, by simp [State.store, e]⟩

/-- The bytes a store leaves outside its range (R57). -/
theorem Memory.readByte_pokeBytes_outside (m : Memory) (a : Nat) (w : Width) (v : Word) {b : Word}
    (h : b.toNat < a ∨ a + w.bytes ≤ b.toNat) : (m.pokeBytes a w v).readByte b = m.readByte b := by
  simp [Memory.readByte, Memory.peek_pokeBytes_outside m a w v h]

/-- The shape of every meaning: each instruction is one of the shared operations, or the fault of JAL and JALR. -/
theorem exec_shape (i : Instr) (s : State) :
    (∃ rd v, i.dest = some rd ∧ exec i s = s.retire rd v) ∨
    (∃ rd v, i.dest = some rd ∧ exec i s = s.jumpAndLink rd v) ∨
    (∃ t, exec i s = raise (.misalignedAddress t)) ∨
    (∃ c imm, i.dest = none ∧ exec i s = s.branch c imm) ∨
    (∃ w e rd rs1 imm, i.dest = some rd ∧ i.loads = some (w, rs1, imm) ∧ exec i s = s.load w e rd rs1 imm) ∨
    (∃ w rs1 rs2 imm, i.dest = none ∧ i.stores = some (w, rs1, imm) ∧ exec i s = s.store w rs1 rs2 imm) ∨
    (i.dest = none ∧ exec i s = s.onlyAdvance) ∨
    (∃ r, i.dest = none ∧ exec i s = s.haltWith r) := by
  cases i
  case jal rd imm =>
    by_cases h : imm.toNat % 4 = 0
    · exact .inr (.inl ⟨rd, s.pc + imm, rfl, by simp [exec, execJal, h]⟩)
    · exact .inr (.inr (.inl ⟨s.pc + imm, by simp [exec, execJal, h]⟩))
  case jalr rd rs1 imm =>
    by_cases h : (s.jalrTarget rd rs1 imm).toNat % 4 = 0
    · exact .inr (.inl ⟨rd, s.jalrTarget rd rs1 imm, rfl, by simp [exec, execJalr, h]⟩)
    · exact .inr (.inr (.inl ⟨s.jalrTarget rd rs1 imm, by simp [exec, execJalr, h]⟩))
  all_goals first
    | exact .inl ⟨_, _, rfl, rfl⟩
    | exact .inr (.inr (.inr (.inl ⟨_, _, rfl, rfl⟩)))
    | exact .inr (.inr (.inr (.inr (.inl ⟨_, _, _, _, _, rfl, rfl, rfl⟩))))
    | exact .inr (.inr (.inr (.inr (.inr (.inl ⟨_, _, _, _, rfl, rfl, rfl⟩)))))
    | exact .inr (.inr (.inr (.inr (.inr (.inr (.inl ⟨rfl, rfl⟩))))))
    | exact .inr (.inr (.inr (.inr (.inr (.inr (.inr ⟨_, rfl, rfl⟩))))))

end Sys2Proof.Machine
end

