-- ==== Sys2Proof/Laws/Encoding.lean ====
section
/-! SUPPORT. What each field extractor reads from a word of each encoded format (R101-R110), and that the immediates in
the ranges of R131 survive encoding. -/

namespace Sys2Proof

/-! ## encR -/

@[simp] theorem opcodeOf_encR (f7 : BitVec 7) (rs2 : RegIdx) (rs1 : RegIdx) (f3 : BitVec 3) (rd : RegIdx) (op : BitVec 7) :
    opcodeOf (encR f7 rs2 rs1 f3 rd op) = op :=
  (BitVec.extractLsb'_append_eq_of_add_le (by decide)).trans (by simp)

@[simp] theorem rdOf_encR (f7 : BitVec 7) (rs2 : RegIdx) (rs1 : RegIdx) (f3 : BitVec 3) (rd : RegIdx) (op : BitVec 7) :
    rdOf (encR f7 rs2 rs1 f3 rd op) = rd :=
  (BitVec.extractLsb'_append_eq_of_le (by decide)).trans <| (BitVec.extractLsb'_append_eq_of_add_le (by decide)).trans (by simp)

@[simp] theorem funct3Of_encR (f7 : BitVec 7) (rs2 : RegIdx) (rs1 : RegIdx) (f3 : BitVec 3) (rd : RegIdx) (op : BitVec 7) :
    funct3Of (encR f7 rs2 rs1 f3 rd op) = f3 :=
  (BitVec.extractLsb'_append_eq_of_le (by decide)).trans <| (BitVec.extractLsb'_append_eq_of_le (by decide)).trans <| (BitVec.extractLsb'_append_eq_of_add_le (by decide)).trans (by simp)

@[simp] theorem rs1Of_encR (f7 : BitVec 7) (rs2 : RegIdx) (rs1 : RegIdx) (f3 : BitVec 3) (rd : RegIdx) (op : BitVec 7) :
    rs1Of (encR f7 rs2 rs1 f3 rd op) = rs1 :=
  (BitVec.extractLsb'_append_eq_of_le (by decide)).trans <| (BitVec.extractLsb'_append_eq_of_le (by decide)).trans <| (BitVec.extractLsb'_append_eq_of_le (by decide)).trans <| (BitVec.extractLsb'_append_eq_of_add_le (by decide)).trans (by simp)

@[simp] theorem rs2Of_encR (f7 : BitVec 7) (rs2 : RegIdx) (rs1 : RegIdx) (f3 : BitVec 3) (rd : RegIdx) (op : BitVec 7) :
    rs2Of (encR f7 rs2 rs1 f3 rd op) = rs2 :=
  (BitVec.extractLsb'_append_eq_of_le (by decide)).trans <| (BitVec.extractLsb'_append_eq_of_le (by decide)).trans <| (BitVec.extractLsb'_append_eq_of_le (by decide)).trans <| (BitVec.extractLsb'_append_eq_of_le (by decide)).trans <| (BitVec.extractLsb'_append_eq_of_add_le (by decide)).trans (by simp)

@[simp] theorem funct7Of_encR (f7 : BitVec 7) (rs2 : RegIdx) (rs1 : RegIdx) (f3 : BitVec 3) (rd : RegIdx) (op : BitVec 7) :
    funct7Of (encR f7 rs2 rs1 f3 rd op) = f7 :=
  (BitVec.extractLsb'_append_eq_of_le (by decide)).trans <| (BitVec.extractLsb'_append_eq_of_le (by decide)).trans <| (BitVec.extractLsb'_append_eq_of_le (by decide)).trans <| (BitVec.extractLsb'_append_eq_of_le (by decide)).trans <| (BitVec.extractLsb'_append_eq_of_le (by decide)).trans <| by simp

/-! ## encI -/

@[simp] theorem opcodeOf_encI (field : BitVec 12) (rs1 : RegIdx) (f3 : BitVec 3) (rd : RegIdx) (op : BitVec 7) :
    opcodeOf (encI field rs1 f3 rd op) = op :=
  (BitVec.extractLsb'_append_eq_of_add_le (by decide)).trans (by simp)

@[simp] theorem rdOf_encI (field : BitVec 12) (rs1 : RegIdx) (f3 : BitVec 3) (rd : RegIdx) (op : BitVec 7) :
    rdOf (encI field rs1 f3 rd op) = rd :=
  (BitVec.extractLsb'_append_eq_of_le (by decide)).trans <| (BitVec.extractLsb'_append_eq_of_add_le (by decide)).trans (by simp)

@[simp] theorem funct3Of_encI (field : BitVec 12) (rs1 : RegIdx) (f3 : BitVec 3) (rd : RegIdx) (op : BitVec 7) :
    funct3Of (encI field rs1 f3 rd op) = f3 :=
  (BitVec.extractLsb'_append_eq_of_le (by decide)).trans <| (BitVec.extractLsb'_append_eq_of_le (by decide)).trans <| (BitVec.extractLsb'_append_eq_of_add_le (by decide)).trans (by simp)

@[simp] theorem rs1Of_encI (field : BitVec 12) (rs1 : RegIdx) (f3 : BitVec 3) (rd : RegIdx) (op : BitVec 7) :
    rs1Of (encI field rs1 f3 rd op) = rs1 :=
  (BitVec.extractLsb'_append_eq_of_le (by decide)).trans <| (BitVec.extractLsb'_append_eq_of_le (by decide)).trans <| (BitVec.extractLsb'_append_eq_of_le (by decide)).trans <| (BitVec.extractLsb'_append_eq_of_add_le (by decide)).trans (by simp)

@[simp] theorem csrOf_encI (field : BitVec 12) (rs1 : RegIdx) (f3 : BitVec 3) (rd : RegIdx) (op : BitVec 7) :
    csrOf (encI field rs1 f3 rd op) = field :=
  (BitVec.extractLsb'_append_eq_of_le (by decide)).trans <| (BitVec.extractLsb'_append_eq_of_le (by decide)).trans <| (BitVec.extractLsb'_append_eq_of_le (by decide)).trans <| (BitVec.extractLsb'_append_eq_of_le (by decide)).trans <| by simp

/-! ## encS -/

@[simp] theorem opcodeOf_encS (imm : Word) (rs2 : RegIdx) (rs1 : RegIdx) (f3 : BitVec 3) (op : BitVec 7) :
    opcodeOf (encS imm rs2 rs1 f3 op) = op :=
  (BitVec.extractLsb'_append_eq_of_add_le (by decide)).trans (by simp)

theorem bits7_encS (imm : Word) (rs2 : RegIdx) (rs1 : RegIdx) (f3 : BitVec 3) (op : BitVec 7) :
    (encS imm rs2 rs1 f3 op).extractLsb' 7 5 = imm.extractLsb' 0 5 :=
  (BitVec.extractLsb'_append_eq_of_le (by decide)).trans <| (BitVec.extractLsb'_append_eq_of_add_le (by decide)).trans (by simp)

@[simp] theorem funct3Of_encS (imm : Word) (rs2 : RegIdx) (rs1 : RegIdx) (f3 : BitVec 3) (op : BitVec 7) :
    funct3Of (encS imm rs2 rs1 f3 op) = f3 :=
  (BitVec.extractLsb'_append_eq_of_le (by decide)).trans <| (BitVec.extractLsb'_append_eq_of_le (by decide)).trans <| (BitVec.extractLsb'_append_eq_of_add_le (by decide)).trans (by simp)

@[simp] theorem rs1Of_encS (imm : Word) (rs2 : RegIdx) (rs1 : RegIdx) (f3 : BitVec 3) (op : BitVec 7) :
    rs1Of (encS imm rs2 rs1 f3 op) = rs1 :=
  (BitVec.extractLsb'_append_eq_of_le (by decide)).trans <| (BitVec.extractLsb'_append_eq_of_le (by decide)).trans <| (BitVec.extractLsb'_append_eq_of_le (by decide)).trans <| (BitVec.extractLsb'_append_eq_of_add_le (by decide)).trans (by simp)

@[simp] theorem rs2Of_encS (imm : Word) (rs2 : RegIdx) (rs1 : RegIdx) (f3 : BitVec 3) (op : BitVec 7) :
    rs2Of (encS imm rs2 rs1 f3 op) = rs2 :=
  (BitVec.extractLsb'_append_eq_of_le (by decide)).trans <| (BitVec.extractLsb'_append_eq_of_le (by decide)).trans <| (BitVec.extractLsb'_append_eq_of_le (by decide)).trans <| (BitVec.extractLsb'_append_eq_of_le (by decide)).trans <| (BitVec.extractLsb'_append_eq_of_add_le (by decide)).trans (by simp)

theorem bits25_encS (imm : Word) (rs2 : RegIdx) (rs1 : RegIdx) (f3 : BitVec 3) (op : BitVec 7) :
    (encS imm rs2 rs1 f3 op).extractLsb' 25 7 = imm.extractLsb' 5 7 :=
  (BitVec.extractLsb'_append_eq_of_le (by decide)).trans <| (BitVec.extractLsb'_append_eq_of_le (by decide)).trans <| (BitVec.extractLsb'_append_eq_of_le (by decide)).trans <| (BitVec.extractLsb'_append_eq_of_le (by decide)).trans <| (BitVec.extractLsb'_append_eq_of_le (by decide)).trans <| by simp

/-! ## encB -/

@[simp] theorem opcodeOf_encB (imm : Word) (rs2 : RegIdx) (rs1 : RegIdx) (f3 : BitVec 3) (op : BitVec 7) :
    opcodeOf (encB imm rs2 rs1 f3 op) = op :=
  (BitVec.extractLsb'_append_eq_of_add_le (by decide)).trans (by simp)

theorem bits7_encB (imm : Word) (rs2 : RegIdx) (rs1 : RegIdx) (f3 : BitVec 3) (op : BitVec 7) :
    (encB imm rs2 rs1 f3 op).extractLsb' 7 1 = imm.extractLsb' 11 1 :=
  (BitVec.extractLsb'_append_eq_of_le (by decide)).trans <| (BitVec.extractLsb'_append_eq_of_add_le (by decide)).trans (by simp)

theorem bits8_encB (imm : Word) (rs2 : RegIdx) (rs1 : RegIdx) (f3 : BitVec 3) (op : BitVec 7) :
    (encB imm rs2 rs1 f3 op).extractLsb' 8 4 = imm.extractLsb' 1 4 :=
  (BitVec.extractLsb'_append_eq_of_le (by decide)).trans <| (BitVec.extractLsb'_append_eq_of_le (by decide)).trans <| (BitVec.extractLsb'_append_eq_of_add_le (by decide)).trans (by simp)

@[simp] theorem funct3Of_encB (imm : Word) (rs2 : RegIdx) (rs1 : RegIdx) (f3 : BitVec 3) (op : BitVec 7) :
    funct3Of (encB imm rs2 rs1 f3 op) = f3 :=
  (BitVec.extractLsb'_append_eq_of_le (by decide)).trans <| (BitVec.extractLsb'_append_eq_of_le (by decide)).trans <| (BitVec.extractLsb'_append_eq_of_le (by decide)).trans <| (BitVec.extractLsb'_append_eq_of_add_le (by decide)).trans (by simp)

@[simp] theorem rs1Of_encB (imm : Word) (rs2 : RegIdx) (rs1 : RegIdx) (f3 : BitVec 3) (op : BitVec 7) :
    rs1Of (encB imm rs2 rs1 f3 op) = rs1 :=
  (BitVec.extractLsb'_append_eq_of_le (by decide)).trans <| (BitVec.extractLsb'_append_eq_of_le (by decide)).trans <| (BitVec.extractLsb'_append_eq_of_le (by decide)).trans <| (BitVec.extractLsb'_append_eq_of_le (by decide)).trans <| (BitVec.extractLsb'_append_eq_of_add_le (by decide)).trans (by simp)

@[simp] theorem rs2Of_encB (imm : Word) (rs2 : RegIdx) (rs1 : RegIdx) (f3 : BitVec 3) (op : BitVec 7) :
    rs2Of (encB imm rs2 rs1 f3 op) = rs2 :=
  (BitVec.extractLsb'_append_eq_of_le (by decide)).trans <| (BitVec.extractLsb'_append_eq_of_le (by decide)).trans <| (BitVec.extractLsb'_append_eq_of_le (by decide)).trans <| (BitVec.extractLsb'_append_eq_of_le (by decide)).trans <| (BitVec.extractLsb'_append_eq_of_le (by decide)).trans <| (BitVec.extractLsb'_append_eq_of_add_le (by decide)).trans (by simp)

theorem bits25_encB (imm : Word) (rs2 : RegIdx) (rs1 : RegIdx) (f3 : BitVec 3) (op : BitVec 7) :
    (encB imm rs2 rs1 f3 op).extractLsb' 25 6 = imm.extractLsb' 5 6 :=
  (BitVec.extractLsb'_append_eq_of_le (by decide)).trans <| (BitVec.extractLsb'_append_eq_of_le (by decide)).trans <| (BitVec.extractLsb'_append_eq_of_le (by decide)).trans <| (BitVec.extractLsb'_append_eq_of_le (by decide)).trans <| (BitVec.extractLsb'_append_eq_of_le (by decide)).trans <| (BitVec.extractLsb'_append_eq_of_le (by decide)).trans <| (BitVec.extractLsb'_append_eq_of_add_le (by decide)).trans (by simp)

theorem bits31_encB (imm : Word) (rs2 : RegIdx) (rs1 : RegIdx) (f3 : BitVec 3) (op : BitVec 7) :
    (encB imm rs2 rs1 f3 op).extractLsb' 31 1 = imm.extractLsb' 12 1 :=
  (BitVec.extractLsb'_append_eq_of_le (by decide)).trans <| (BitVec.extractLsb'_append_eq_of_le (by decide)).trans <| (BitVec.extractLsb'_append_eq_of_le (by decide)).trans <| (BitVec.extractLsb'_append_eq_of_le (by decide)).trans <| (BitVec.extractLsb'_append_eq_of_le (by decide)).trans <| (BitVec.extractLsb'_append_eq_of_le (by decide)).trans <| (BitVec.extractLsb'_append_eq_of_le (by decide)).trans <| by simp

/-! ## encU -/

@[simp] theorem opcodeOf_encU (imm : Word) (rd : RegIdx) (op : BitVec 7) :
    opcodeOf (encU imm rd op) = op :=
  (BitVec.extractLsb'_append_eq_of_add_le (by decide)).trans (by simp)

@[simp] theorem rdOf_encU (imm : Word) (rd : RegIdx) (op : BitVec 7) :
    rdOf (encU imm rd op) = rd :=
  (BitVec.extractLsb'_append_eq_of_le (by decide)).trans <| (BitVec.extractLsb'_append_eq_of_add_le (by decide)).trans (by simp)

theorem bits12_encU (imm : Word) (rd : RegIdx) (op : BitVec 7) :
    (encU imm rd op).extractLsb' 12 20 = imm.extractLsb' 12 20 :=
  (BitVec.extractLsb'_append_eq_of_le (by decide)).trans <| (BitVec.extractLsb'_append_eq_of_le (by decide)).trans <| by simp

/-! ## encJ -/

@[simp] theorem opcodeOf_encJ (imm : Word) (rd : RegIdx) (op : BitVec 7) :
    opcodeOf (encJ imm rd op) = op :=
  (BitVec.extractLsb'_append_eq_of_add_le (by decide)).trans (by simp)

@[simp] theorem rdOf_encJ (imm : Word) (rd : RegIdx) (op : BitVec 7) :
    rdOf (encJ imm rd op) = rd :=
  (BitVec.extractLsb'_append_eq_of_le (by decide)).trans <| (BitVec.extractLsb'_append_eq_of_add_le (by decide)).trans (by simp)

theorem bits12_encJ (imm : Word) (rd : RegIdx) (op : BitVec 7) :
    (encJ imm rd op).extractLsb' 12 8 = imm.extractLsb' 12 8 :=
  (BitVec.extractLsb'_append_eq_of_le (by decide)).trans <| (BitVec.extractLsb'_append_eq_of_le (by decide)).trans <| (BitVec.extractLsb'_append_eq_of_add_le (by decide)).trans (by simp)

theorem bits20_encJ (imm : Word) (rd : RegIdx) (op : BitVec 7) :
    (encJ imm rd op).extractLsb' 20 1 = imm.extractLsb' 11 1 :=
  (BitVec.extractLsb'_append_eq_of_le (by decide)).trans <| (BitVec.extractLsb'_append_eq_of_le (by decide)).trans <| (BitVec.extractLsb'_append_eq_of_le (by decide)).trans <| (BitVec.extractLsb'_append_eq_of_add_le (by decide)).trans (by simp)

theorem bits21_encJ (imm : Word) (rd : RegIdx) (op : BitVec 7) :
    (encJ imm rd op).extractLsb' 21 10 = imm.extractLsb' 1 10 :=
  (BitVec.extractLsb'_append_eq_of_le (by decide)).trans <| (BitVec.extractLsb'_append_eq_of_le (by decide)).trans <| (BitVec.extractLsb'_append_eq_of_le (by decide)).trans <| (BitVec.extractLsb'_append_eq_of_le (by decide)).trans <| (BitVec.extractLsb'_append_eq_of_add_le (by decide)).trans (by simp)

theorem bits31_encJ (imm : Word) (rd : RegIdx) (op : BitVec 7) :
    (encJ imm rd op).extractLsb' 31 1 = imm.extractLsb' 20 1 :=
  (BitVec.extractLsb'_append_eq_of_le (by decide)).trans <| (BitVec.extractLsb'_append_eq_of_le (by decide)).trans <| (BitVec.extractLsb'_append_eq_of_le (by decide)).trans <| (BitVec.extractLsb'_append_eq_of_le (by decide)).trans <| (BitVec.extractLsb'_append_eq_of_le (by decide)).trans <| by simp

/-! ## encFence -/

@[simp] theorem opcodeOf_encFence (pred : BitVec 4) (succ : BitVec 4) (f3 : BitVec 3) (op : BitVec 7) :
    opcodeOf (encFence pred succ f3 op) = op :=
  (BitVec.extractLsb'_append_eq_of_add_le (by decide)).trans (by simp)

@[simp] theorem rdOf_encFence (pred : BitVec 4) (succ : BitVec 4) (f3 : BitVec 3) (op : BitVec 7) :
    rdOf (encFence pred succ f3 op) = 0#5 :=
  (BitVec.extractLsb'_append_eq_of_le (by decide)).trans <| (BitVec.extractLsb'_append_eq_of_add_le (by decide)).trans (by simp)

@[simp] theorem funct3Of_encFence (pred : BitVec 4) (succ : BitVec 4) (f3 : BitVec 3) (op : BitVec 7) :
    funct3Of (encFence pred succ f3 op) = f3 :=
  (BitVec.extractLsb'_append_eq_of_le (by decide)).trans <| (BitVec.extractLsb'_append_eq_of_le (by decide)).trans <| (BitVec.extractLsb'_append_eq_of_add_le (by decide)).trans (by simp)

@[simp] theorem rs1Of_encFence (pred : BitVec 4) (succ : BitVec 4) (f3 : BitVec 3) (op : BitVec 7) :
    rs1Of (encFence pred succ f3 op) = 0#5 :=
  (BitVec.extractLsb'_append_eq_of_le (by decide)).trans <| (BitVec.extractLsb'_append_eq_of_le (by decide)).trans <| (BitVec.extractLsb'_append_eq_of_le (by decide)).trans <| (BitVec.extractLsb'_append_eq_of_add_le (by decide)).trans (by simp)

@[simp] theorem succOf_encFence (pred : BitVec 4) (succ : BitVec 4) (f3 : BitVec 3) (op : BitVec 7) :
    succOf (encFence pred succ f3 op) = succ :=
  (BitVec.extractLsb'_append_eq_of_le (by decide)).trans <| (BitVec.extractLsb'_append_eq_of_le (by decide)).trans <| (BitVec.extractLsb'_append_eq_of_le (by decide)).trans <| (BitVec.extractLsb'_append_eq_of_le (by decide)).trans <| (BitVec.extractLsb'_append_eq_of_add_le (by decide)).trans (by simp)

@[simp] theorem predOf_encFence (pred : BitVec 4) (succ : BitVec 4) (f3 : BitVec 3) (op : BitVec 7) :
    predOf (encFence pred succ f3 op) = pred :=
  (BitVec.extractLsb'_append_eq_of_le (by decide)).trans <| (BitVec.extractLsb'_append_eq_of_le (by decide)).trans <| (BitVec.extractLsb'_append_eq_of_le (by decide)).trans <| (BitVec.extractLsb'_append_eq_of_le (by decide)).trans <| (BitVec.extractLsb'_append_eq_of_le (by decide)).trans <| (BitVec.extractLsb'_append_eq_of_add_le (by decide)).trans (by simp)

@[simp] theorem fenceRsvdOf_encFence (pred : BitVec 4) (succ : BitVec 4) (f3 : BitVec 3) (op : BitVec 7) :
    fenceRsvdOf (encFence pred succ f3 op) = 0#4 :=
  (BitVec.extractLsb'_append_eq_of_le (by decide)).trans <| (BitVec.extractLsb'_append_eq_of_le (by decide)).trans <| (BitVec.extractLsb'_append_eq_of_le (by decide)).trans <| (BitVec.extractLsb'_append_eq_of_le (by decide)).trans <| (BitVec.extractLsb'_append_eq_of_le (by decide)).trans <| (BitVec.extractLsb'_append_eq_of_le (by decide)).trans <| by simp

/-- The eight values of funct3. -/
theorem funct3_cases (x : BitVec 3) :
    x = 0#3 ∨ x = 1#3 ∨ x = 2#3 ∨ x = 3#3 ∨ x = 4#3 ∨ x = 5#3 ∨ x = 6#3 ∨ x = 7#3 := by
  revert x
  decide

/-! ## Every word is the encoding of its own fields -/

theorem encR_fields (w : Word) : encR (funct7Of w) (rs2Of w) (rs1Of w) (funct3Of w) (rdOf w) (opcodeOf w) = w := by
  apply BitVec.eq_of_getLsbD_eq
  intro i hi
  simp only [encR, funct7Of, rs2Of, rs1Of, funct3Of, rdOf, opcodeOf, BitVec.getLsbD_append,
    BitVec.getLsbD_extractLsb']
  interval_cases i <;> simp

theorem encI_fields (w : Word) : encI (imm12 (immIOf w)) (rs1Of w) (funct3Of w) (rdOf w) (opcodeOf w) = w := by
  apply BitVec.eq_of_getLsbD_eq
  intro i hi
  simp only [encI, imm12, immIOf, rs1Of, funct3Of, rdOf, opcodeOf, BitVec.getLsbD_append,
    BitVec.getLsbD_extractLsb', BitVec.getLsbD_signExtend]
  interval_cases i <;> simp

theorem encI_csr_fields (w : Word) : encI (csrOf w) (rs1Of w) (funct3Of w) (rdOf w) (opcodeOf w) = w := by
  apply BitVec.eq_of_getLsbD_eq
  intro i hi
  simp only [encI, csrOf, rs1Of, funct3Of, rdOf, opcodeOf, BitVec.getLsbD_append,
    BitVec.getLsbD_extractLsb']
  interval_cases i <;> simp

theorem encS_fields (w : Word) : encS (immSOf w) (rs2Of w) (rs1Of w) (funct3Of w) (opcodeOf w) = w := by
  apply BitVec.eq_of_getLsbD_eq
  intro i hi
  simp only [encS, immSOf, rs2Of, rs1Of, funct3Of, opcodeOf, BitVec.getLsbD_append,
    BitVec.getLsbD_extractLsb', BitVec.getLsbD_signExtend]
  interval_cases i <;> simp

theorem encB_fields (w : Word) : encB (immBOf w) (rs2Of w) (rs1Of w) (funct3Of w) (opcodeOf w) = w := by
  apply BitVec.eq_of_getLsbD_eq
  intro i hi
  simp only [encB, immBOf, rs2Of, rs1Of, funct3Of, opcodeOf, BitVec.getLsbD_append,
    BitVec.getLsbD_extractLsb', BitVec.getLsbD_signExtend]
  interval_cases i <;> simp

theorem encU_fields (w : Word) : encU (immUOf w) (rdOf w) (opcodeOf w) = w := by
  apply BitVec.eq_of_getLsbD_eq
  intro i hi
  simp only [encU, immUOf, rdOf, opcodeOf, BitVec.getLsbD_append,
    BitVec.getLsbD_extractLsb']
  interval_cases i <;> simp

theorem encJ_fields (w : Word) : encJ (immJOf w) (rdOf w) (opcodeOf w) = w := by
  apply BitVec.eq_of_getLsbD_eq
  intro i hi
  simp only [encJ, immJOf, rdOf, opcodeOf, BitVec.getLsbD_append,
    BitVec.getLsbD_extractLsb', BitVec.getLsbD_signExtend]
  interval_cases i <;> simp

/-- A word that passes the Fence check is the Fence encoding of its fields. -/
theorem encFence_fields {w : Word} (h : fenceCheck w = true) :
    encFence (predOf w) (succOf w) (funct3Of w) (opcodeOf w) = w := by
  simp only [fenceCheck, decide_eq_true_eq] at h
  have hw : fenceRsvdOf w ++ predOf w ++ succOf w ++ rs1Of w ++ funct3Of w ++ rdOf w ++ opcodeOf w = w := by
    apply BitVec.eq_of_getLsbD_eq
    intro i hi
    simp only [fenceRsvdOf, predOf, succOf, rs1Of, funct3Of, rdOf, opcodeOf, BitVec.getLsbD_append,
      BitVec.getLsbD_extractLsb']
    interval_cases i <;> simp
  rw [h.1, h.2.1, h.2.2] at hw
  exact hw

/-! ## Immediates -/

/-- A value in the range of an `n`-bit two's-complement field is the sign extension of its low `n` bits. -/
theorem signExtend_low (imm : Word) {n : Nat} (hn : 0 < n) (hn' : n ≤ 32) (h1 : -(2 : Int) ^ (n - 1) ≤ imm.toInt)
    (h2 : imm.toInt < (2 : Int) ^ (n - 1)) : (imm.extractLsb' 0 n).signExtend 32 = imm := by
  apply BitVec.eq_of_toInt_eq
  rw [BitVec.toInt_signExtend_of_le hn', ← BitVec.setWidth_eq_extractLsb' hn', BitVec.toInt_setWidth]
  have hb : (imm.toNat : Int).bmod (2 ^ n) = imm.toInt.bmod (2 ^ n) := by
    rw [BitVec.toInt_eq_toNat_bmod, Int.bmod_bmod_of_dvd]
    exact pow_dvd_pow 2 hn'
  obtain ⟨m, rfl⟩ : ∃ m, n = m + 1 := ⟨n - 1, by omega⟩
  rw [hb]
  simp only [Nat.add_sub_cancel] at h1 h2
  apply Int.bmod_eq_of_le
  · push_cast
    rw [pow_succ]
    omega
  · push_cast
    rw [pow_succ]
    omega

/-- The low bit of an even value is 0. -/
theorem lowBit_even {imm : Word} (h : imm.toInt % 2 = 0) : imm.extractLsb' 0 1 = 0#1 := by
  apply BitVec.eq_of_toNat_eq
  rw [BitVec.extractLsb'_toNat]
  rw [BitVec.toInt_eq_toNat_cond] at h
  simp only [Nat.shiftRight_zero, pow_one, BitVec.toNat_ofNat, Nat.zero_mod]
  split at h <;> omega

theorem immIOf_encI {imm : Word} (rs1 : RegIdx) (f3 : BitVec 3) (rd : RegIdx) (op : BitVec 7)
    (h : immIOk imm = true) : immIOf (encI (imm12 imm) rs1 f3 rd op) = imm := by
  simp only [immIOk, decide_eq_true_eq] at h
  have := csrOf_encI (imm12 imm) rs1 f3 rd op
  unfold csrOf at this
  rw [immIOf, this]
  exact signExtend_low imm (by decide) (by decide) h.1 (by norm_num; omega)

theorem immSOf_encS {imm : Word} (rs2 rs1 : RegIdx) (f3 : BitVec 3) (op : BitVec 7) (h : immIOk imm = true) :
    immSOf (encS imm rs2 rs1 f3 op) = imm := by
  simp only [immIOk, decide_eq_true_eq] at h
  have hc : (imm.extractLsb' 5 7 ++ imm.extractLsb' 0 5 : BitVec 12) = imm.extractLsb' 0 12 := by
    apply BitVec.eq_of_getLsbD_eq
    intro i hi
    simp only [BitVec.getLsbD_append, BitVec.getLsbD_extractLsb']
    interval_cases i <;> rfl
  simp only [immSOf, bits25_encS, bits7_encS, hc]
  exact signExtend_low imm (by decide) (by decide) h.1 (by norm_num; omega)

theorem immBOf_encB {imm : Word} (rs2 rs1 : RegIdx) (f3 : BitVec 3) (op : BitVec 7) (h : immBOk imm = true) :
    immBOf (encB imm rs2 rs1 f3 op) = imm := by
  simp only [immBOk, decide_eq_true_eq] at h
  have hc : (imm.extractLsb' 12 1 ++ imm.extractLsb' 11 1 ++ imm.extractLsb' 5 6 ++ imm.extractLsb' 1 4 ++ 0#1 :
      BitVec 13) = imm.extractLsb' 0 13 := by
    rw [← lowBit_even h.2.2]
    apply BitVec.eq_of_getLsbD_eq
    intro i hi
    simp only [BitVec.getLsbD_append, BitVec.getLsbD_extractLsb']
    interval_cases i <;> rfl
  simp only [immBOf, bits31_encB, bits7_encB, bits25_encB, bits8_encB, hc]
  exact signExtend_low imm (by decide) (by decide) h.1 (by norm_num; omega)

theorem immUOf_encU {imm : Word} (rd : RegIdx) (op : BitVec 7) (h : immUOk imm = true) :
    immUOf (encU imm rd op) = imm := by
  simp only [immUOk, decide_eq_true_eq] at h
  have hz : imm.extractLsb' 0 12 = 0#12 := by
    apply BitVec.eq_of_toNat_eq
    rw [BitVec.extractLsb'_toNat]
    simpa using h
  simp only [immUOf, bits12_encU, ← hz]
  apply BitVec.eq_of_getLsbD_eq
  intro i hi
  simp only [BitVec.getLsbD_append, BitVec.getLsbD_extractLsb']
  interval_cases i <;> rfl

theorem immJOf_encJ {imm : Word} (rd : RegIdx) (op : BitVec 7) (h : immJOk imm = true) :
    immJOf (encJ imm rd op) = imm := by
  simp only [immJOk, decide_eq_true_eq] at h
  have hc : (imm.extractLsb' 20 1 ++ imm.extractLsb' 12 8 ++ imm.extractLsb' 11 1 ++ imm.extractLsb' 1 10 ++ 0#1 :
      BitVec 21) = imm.extractLsb' 0 21 := by
    rw [← lowBit_even h.2.2]
    apply BitVec.eq_of_getLsbD_eq
    intro i hi
    simp only [BitVec.getLsbD_append, BitVec.getLsbD_extractLsb']
    interval_cases i <;> rfl
  simp only [immJOf, bits31_encJ, bits12_encJ, bits20_encJ, bits21_encJ, hc]
  exact signExtend_low imm (by decide) (by decide) h.1 (by norm_num; omega)

/-! ## Decoded immediates are in the ranges of R131 -/

theorem immIOk_signExtend (x : BitVec 12) : immIOk (x.signExtend 32) = true := by
  have h1 := x.toInt_lt
  have h2 := x.le_toInt
  rw [immIOk, BitVec.toInt_signExtend_of_le (by decide)]
  norm_num at h1 h2
  exact decide_eq_true ⟨by omega, by omega⟩

theorem immIOk_immIOf (w : Word) : immIOk (immIOf w) = true := immIOk_signExtend _

theorem immIOk_immSOf (w : Word) : immIOk (immSOf w) = true := immIOk_signExtend _

/-- A field with a 0 appended is even. -/
theorem toInt_append_zero {n : Nat} (x : BitVec n) : (x ++ 0#1).toInt % 2 = 0 := by
  have hx : (x ++ 0#1).toNat % 2 = 0 := by
    rw [BitVec.toNat_append]
    simp [Nat.shiftLeft_eq]
  rw [BitVec.toInt_eq_toNat_cond]
  have : 2 ^ (n + 1) % 2 = 0 := by simp [pow_succ]
  split <;> push_cast <;> omega

theorem immBOk_signExtend {x : BitVec 13} (h : x.toInt % 2 = 0) : immBOk (x.signExtend 32) = true := by
  have h1 := x.toInt_lt
  have h2 := x.le_toInt
  rw [immBOk, BitVec.toInt_signExtend_of_le (by decide)]
  norm_num at h1 h2
  exact decide_eq_true ⟨by omega, by omega, h⟩

theorem immBOk_immBOf (w : Word) : immBOk (immBOf w) = true := immBOk_signExtend (toInt_append_zero _)

theorem immJOk_signExtend {x : BitVec 21} (h : x.toInt % 2 = 0) : immJOk (x.signExtend 32) = true := by
  have h1 := x.toInt_lt
  have h2 := x.le_toInt
  rw [immJOk, BitVec.toInt_signExtend_of_le (by decide)]
  norm_num at h1 h2
  exact decide_eq_true ⟨by omega, by omega, h⟩

theorem immJOk_immJOf (w : Word) : immJOk (immJOf w) = true := immJOk_signExtend (toInt_append_zero _)

theorem immUOk_immUOf (w : Word) : immUOk (immUOf w) = true := by
  have h : (w.extractLsb' 12 20 ++ 0#12).toNat % 4096 = 0 := by
    rw [BitVec.toNat_append]
    simp [Nat.shiftLeft_eq]
  exact decide_eq_true h

end Sys2Proof
end

