-- ==== Sys2Proof/Laws/PerInstr.lean ====
section
/-! SUPPORT. The per-instruction law OpcodeField: the low 7 bits of every encoded instruction are its opcode in the map
of R112. -/

namespace Sys2Proof.Laws.OpcodeField

open Sys2Proof

/-- Bits 6:0 of the encoded word are the instruction's opcode (R101, R112). -/
def Statement (i : Instr) : Prop := opcodeOf (encode i) = i.opcode

theorem lui (rd : RegIdx) (imm : Word) : Statement (.lui rd imm) := opcodeOf_encU ..
theorem auipc (rd : RegIdx) (imm : Word) : Statement (.auipc rd imm) := opcodeOf_encU ..
theorem addi (rd : RegIdx) (rs1 : RegIdx) (imm : Word) : Statement (.addi rd rs1 imm) := opcodeOf_encI ..
theorem slti (rd : RegIdx) (rs1 : RegIdx) (imm : Word) : Statement (.slti rd rs1 imm) := opcodeOf_encI ..
theorem sltiu (rd : RegIdx) (rs1 : RegIdx) (imm : Word) : Statement (.sltiu rd rs1 imm) := opcodeOf_encI ..
theorem xori (rd : RegIdx) (rs1 : RegIdx) (imm : Word) : Statement (.xori rd rs1 imm) := opcodeOf_encI ..
theorem ori (rd : RegIdx) (rs1 : RegIdx) (imm : Word) : Statement (.ori rd rs1 imm) := opcodeOf_encI ..
theorem andi (rd : RegIdx) (rs1 : RegIdx) (imm : Word) : Statement (.andi rd rs1 imm) := opcodeOf_encI ..
theorem slli (rd : RegIdx) (rs1 : RegIdx) (shamt : BitVec 5) : Statement (.slli rd rs1 shamt) := opcodeOf_encR ..
theorem srli (rd : RegIdx) (rs1 : RegIdx) (shamt : BitVec 5) : Statement (.srli rd rs1 shamt) := opcodeOf_encR ..
theorem srai (rd : RegIdx) (rs1 : RegIdx) (shamt : BitVec 5) : Statement (.srai rd rs1 shamt) := opcodeOf_encR ..
theorem add (rd : RegIdx) (rs1 : RegIdx) (rs2 : RegIdx) : Statement (.add rd rs1 rs2) := opcodeOf_encR ..
theorem sub (rd : RegIdx) (rs1 : RegIdx) (rs2 : RegIdx) : Statement (.sub rd rs1 rs2) := opcodeOf_encR ..
theorem sll (rd : RegIdx) (rs1 : RegIdx) (rs2 : RegIdx) : Statement (.sll rd rs1 rs2) := opcodeOf_encR ..
theorem slt (rd : RegIdx) (rs1 : RegIdx) (rs2 : RegIdx) : Statement (.slt rd rs1 rs2) := opcodeOf_encR ..
theorem sltu (rd : RegIdx) (rs1 : RegIdx) (rs2 : RegIdx) : Statement (.sltu rd rs1 rs2) := opcodeOf_encR ..
theorem xor (rd : RegIdx) (rs1 : RegIdx) (rs2 : RegIdx) : Statement (.xor rd rs1 rs2) := opcodeOf_encR ..
theorem srl (rd : RegIdx) (rs1 : RegIdx) (rs2 : RegIdx) : Statement (.srl rd rs1 rs2) := opcodeOf_encR ..
theorem sra (rd : RegIdx) (rs1 : RegIdx) (rs2 : RegIdx) : Statement (.sra rd rs1 rs2) := opcodeOf_encR ..
theorem or (rd : RegIdx) (rs1 : RegIdx) (rs2 : RegIdx) : Statement (.or rd rs1 rs2) := opcodeOf_encR ..
theorem and (rd : RegIdx) (rs1 : RegIdx) (rs2 : RegIdx) : Statement (.and rd rs1 rs2) := opcodeOf_encR ..
theorem jal (rd : RegIdx) (imm : Word) : Statement (.jal rd imm) := opcodeOf_encJ ..
theorem jalr (rd : RegIdx) (rs1 : RegIdx) (imm : Word) : Statement (.jalr rd rs1 imm) := opcodeOf_encI ..
theorem beq (rs1 : RegIdx) (rs2 : RegIdx) (imm : Word) : Statement (.beq rs1 rs2 imm) := opcodeOf_encB ..
theorem bne (rs1 : RegIdx) (rs2 : RegIdx) (imm : Word) : Statement (.bne rs1 rs2 imm) := opcodeOf_encB ..
theorem blt (rs1 : RegIdx) (rs2 : RegIdx) (imm : Word) : Statement (.blt rs1 rs2 imm) := opcodeOf_encB ..
theorem bge (rs1 : RegIdx) (rs2 : RegIdx) (imm : Word) : Statement (.bge rs1 rs2 imm) := opcodeOf_encB ..
theorem bltu (rs1 : RegIdx) (rs2 : RegIdx) (imm : Word) : Statement (.bltu rs1 rs2 imm) := opcodeOf_encB ..
theorem bgeu (rs1 : RegIdx) (rs2 : RegIdx) (imm : Word) : Statement (.bgeu rs1 rs2 imm) := opcodeOf_encB ..
theorem lb (rd : RegIdx) (rs1 : RegIdx) (imm : Word) : Statement (.lb rd rs1 imm) := opcodeOf_encI ..
theorem lh (rd : RegIdx) (rs1 : RegIdx) (imm : Word) : Statement (.lh rd rs1 imm) := opcodeOf_encI ..
theorem lw (rd : RegIdx) (rs1 : RegIdx) (imm : Word) : Statement (.lw rd rs1 imm) := opcodeOf_encI ..
theorem lbu (rd : RegIdx) (rs1 : RegIdx) (imm : Word) : Statement (.lbu rd rs1 imm) := opcodeOf_encI ..
theorem lhu (rd : RegIdx) (rs1 : RegIdx) (imm : Word) : Statement (.lhu rd rs1 imm) := opcodeOf_encI ..
theorem sb (rs1 : RegIdx) (rs2 : RegIdx) (imm : Word) : Statement (.sb rs1 rs2 imm) := opcodeOf_encS ..
theorem sh (rs1 : RegIdx) (rs2 : RegIdx) (imm : Word) : Statement (.sh rs1 rs2 imm) := opcodeOf_encS ..
theorem sw (rs1 : RegIdx) (rs2 : RegIdx) (imm : Word) : Statement (.sw rs1 rs2 imm) := opcodeOf_encS ..
theorem fence (pred : BitVec 4) (succ : BitVec 4) : Statement (.fence pred succ) := opcodeOf_encFence ..
theorem fenceI : Statement (.fenceI) := opcodeOf_encFence ..
theorem ecall : Statement (.ecall) := opcodeOf_encI ..
theorem ebreak : Statement (.ebreak) := opcodeOf_encI ..
theorem csrrw (rd : RegIdx) (rs1 : RegIdx) (csr : BitVec 12) : Statement (.csrrw rd rs1 csr) := opcodeOf_encI ..
theorem csrrs (rd : RegIdx) (rs1 : RegIdx) (csr : BitVec 12) : Statement (.csrrs rd rs1 csr) := opcodeOf_encI ..
theorem csrrc (rd : RegIdx) (rs1 : RegIdx) (csr : BitVec 12) : Statement (.csrrc rd rs1 csr) := opcodeOf_encI ..
theorem csrrwi (rd : RegIdx) (uimm : BitVec 5) (csr : BitVec 12) : Statement (.csrrwi rd uimm csr) := opcodeOf_encI ..
theorem csrrsi (rd : RegIdx) (uimm : BitVec 5) (csr : BitVec 12) : Statement (.csrrsi rd uimm csr) := opcodeOf_encI ..
theorem csrrci (rd : RegIdx) (uimm : BitVec 5) (csr : BitVec 12) : Statement (.csrrci rd uimm csr) := opcodeOf_encI ..

end Sys2Proof.Laws.OpcodeField
end

