-- ==== Sys2Proof/Laws/Step.lean ====
section
/-! SUPPORT. Everything a step can do, said once. -/

namespace Sys2Proof.Machine

open Sys2Proof

/-- A step answers a fetch fault, a decode fault, or what its instruction does (R150, R305). -/
theorem step_cases (s : State) :
    (∃ e, s.fetch = .error e ∧ step s = .fault (.memory e)) ∨
    (∃ w d, s.fetch = .ok w ∧ decode w = .error d ∧ step s = .fault (.decode d)) ∨
    (∃ w i, s.fetch = .ok w ∧ decode w = .ok i ∧ step s = exec i s.beginStep) := by
  unfold step
  cases hf : s.fetch with
  | error e => exact .inl ⟨e, rfl, rfl⟩
  | ok w =>
    cases hd : decode w with
    | error d => exact .inr (.inl ⟨w, d, rfl, hd, by simp [hd]⟩)
    | ok i => exact .inr (.inr ⟨w, i, rfl, hd, by simp [hd]⟩)

/-- A step that answers a next state ran a decoded instruction. -/
theorem step_next {s t : State} (h : step s = .next t) :
    ∃ w i, s.fetch = .ok w ∧ decode w = .ok i ∧ exec i s.beginStep = .next t := by
  rcases step_cases s with ⟨_, _, e⟩ | ⟨_, _, _, _, e⟩ | ⟨w, i, hf, hd, e⟩
  · rw [e] at h; cases h
  · rw [e] at h; cases h
  · exact ⟨w, i, hf, hd, e ▸ h⟩

/-- The state after a step that went on. -/
theorem State.afterStep_of_next {s t : State} (h : step s = .next t) : s.afterStep = t := by
  simp [State.afterStep, h]

/-- The state after a step that faulted (R160). -/
theorem State.afterStep_of_fault {s : State} {e : Fault} (h : step s = .fault e) : s.afterStep = s.takeFault e := by
  simp [State.afterStep, h]

@[simp] theorem State.afterSteps_zero (s : State) : s.afterSteps 0 = s := rfl

@[simp] theorem State.afterSteps_succ (s : State) (n : Nat) : s.afterSteps (n + 1) = s.afterStep.afterSteps n := rfl

@[simp] theorem RunState.outcome_runState (o : StepOutcome) : o.runState.outcome = o := by cases o <;> rfl

@[simp] theorem StepOutcome.runState_outcome (r : RunState) : r.outcome.runState = r := by
  cases r with
  | halted x => cases x <;> rfl
  | _ => rfl

end Sys2Proof.Machine
end

