-- ==== Sys2Proof/Tests/Slice0.lean ====
section
/-! SUPPORT. Tests: the vectors of 95_test_vectors.md and the examples of the rules, one step each, and a witness for the
hypotheses of every obligation. Expected values are the spec's. -/

namespace Sys2Proof.Tests

open Sys2Proof Sys2Proof.Machine

/-! ## WellFormed smoke tests (R131) -/

theorem test_wf_immI_above : (Instr.addi 1#5 2#5 2048#32).wellFormed = false := by decide
theorem test_wf_immI_below : (Instr.sw 1#5 2#5 0xFFFFF7FF#32).wellFormed = false := by decide
theorem test_wf_immB_odd : (Instr.beq 1#5 2#5 1#32).wellFormed = false := by decide
theorem test_wf_immB_above : (Instr.beq 1#5 2#5 4096#32).wellFormed = false := by decide
theorem test_wf_immB_below : (Instr.bne 1#5 2#5 0xFFFFEFFE#32).wellFormed = false := by decide
theorem test_wf_immU_low : (Instr.lui 1#5 1#32).wellFormed = false := by decide
theorem test_wf_immJ_odd : (Instr.jal 1#5 3#32).wellFormed = false := by decide
theorem test_wf_immJ_above : (Instr.jal 1#5 1048576#32).wellFormed = false := by decide
theorem test_wf_immJ_below : (Instr.jal 1#5 0xFFEFFFFE#32).wellFormed = false := by decide

/-! ## Decoding: every constructor, from the spec's own words; one word of each family bit by bit -/

/-- imm 0x12345, rd 5, opcode (R106); imm 1, rd 5 (R204). -/
theorem test_decode_upper :
    decode 0b00010010001101000101001010110111#32 = .ok (.lui 5#5 0x12345000#32) ∧
    decode 0x00001297#32 = .ok (.auipc 5#5 0x1000#32) := by decide

/-- ADDI: imm 0x7FF, rs1 0, funct3 000, rd 3 (R134); the rest R206-R210. -/
theorem test_decode_opImm :
    decode 0b01111111111100000000000110010011#32 = .ok (.addi 3#5 0#5 2047#32) ∧
    decode 0xFFF32293#32 = .ok (.slti 5#5 6#5 0xFFFFFFFF#32) ∧
    decode 0x00133293#32 = .ok (.sltiu 5#5 6#5 1#32) ∧
    decode 0x55534293#32 = .ok (.xori 5#5 6#5 0x555#32) ∧
    decode 0x80036293#32 = .ok (.ori 5#5 6#5 0xFFFFF800#32) ∧
    decode 0xFF037293#32 = .ok (.andi 5#5 6#5 0xFFFFFFF0#32) := by decide

/-- SRAI: funct7 0100000, shamt 4, rs1 6, funct3 101, rd 5 (R213). -/
theorem test_decode_shiftImm :
    decode 0x01F31293#32 = .ok (.slli 5#5 6#5 31#5) ∧
    decode 0x00435293#32 = .ok (.srli 5#5 6#5 4#5) ∧
    decode 0b01000000010000110101001010010011#32 = .ok (.srai 5#5 6#5 4#5) := by decide

/-- SUB: funct7 0100000, rs2 7, rs1 6, funct3 000, rd 5 (R215); the rest R214-R223. -/
theorem test_decode_op :
    decode 0x007302B3#32 = .ok (.add 5#5 6#5 7#5) ∧
    decode 0b01000000011100110000001010110011#32 = .ok (.sub 5#5 6#5 7#5) ∧
    decode 0x007312B3#32 = .ok (.sll 5#5 6#5 7#5) ∧
    decode 0x007322B3#32 = .ok (.slt 5#5 6#5 7#5) ∧
    decode 0x007332B3#32 = .ok (.sltu 5#5 6#5 7#5) ∧
    decode 0x007342B3#32 = .ok (.xor 5#5 6#5 7#5) ∧
    decode 0x007352B3#32 = .ok (.srl 5#5 6#5 7#5) ∧
    decode 0x407352B3#32 = .ok (.sra 5#5 6#5 7#5) ∧
    decode 0x007362B3#32 = .ok (.or 5#5 6#5 7#5) ∧
    decode 0x007372B3#32 = .ok (.and 5#5 6#5 7#5) := by decide

/-- JAL: imm[20] 1, imm[10:1] 1110000000, imm[11] 1, imm[19:12] all 1, rd 1, which is -256 (95, 2.5). -/
theorem test_decode_jumps :
    decode 0b11110000000111111111000011101111#32 = .ok (.jal 1#5 0xFFFFFF00#32) ∧
    decode 0x001000EF#32 = .ok (.jal 1#5 2048#32) ∧
    decode 0xFFC100E7#32 = .ok (.jalr 1#5 2#5 0xFFFFFFFC#32) := by decide

/-- BNE: imm[12] 1, imm[10:5] 111111, rs2 2, rs1 1, funct3 001, imm[4:1] 1110, imm[11] 1, which is -4 (R247). -/
theorem test_decode_branches :
    decode 0x00208863#32 = .ok (.beq 1#5 2#5 16#32) ∧
    decode 0b11111110001000001001111011100011#32 = .ok (.bne 1#5 2#5 0xFFFFFFFC#32) ∧
    decode 0x0020C463#32 = .ok (.blt 1#5 2#5 8#32) ∧
    decode 0x0020D463#32 = .ok (.bge 1#5 2#5 8#32) ∧
    decode 0x0020E463#32 = .ok (.bltu 1#5 2#5 8#32) ∧
    decode 0x7E00FFE3#32 = .ok (.bgeu 1#5 0#5 4094#32) := by decide

/-- LW: imm 4, rs1 6, funct3 010, rd 5 (95, 2.6). -/
theorem test_decode_loads :
    decode 0xFFF30283#32 = .ok (.lb 5#5 6#5 0xFFFFFFFF#32) ∧
    decode 0x00231283#32 = .ok (.lh 5#5 6#5 2#32) ∧
    decode 0b00000000010000110010001010000011#32 = .ok (.lw 5#5 6#5 4#32) ∧
    decode 0x00334283#32 = .ok (.lbu 5#5 6#5 3#32) ∧
    decode 0x00235283#32 = .ok (.lhu 5#5 6#5 2#32) := by decide

/-- SW: imm[11:5] 1111111, rs2 7, rs1 6, funct3 010, imm[4:0] 11110, which is -2 (95, 2.6). -/
theorem test_decode_stores :
    decode 0x00730023#32 = .ok (.sb 6#5 7#5 0#32) ∧
    decode 0x007310A3#32 = .ok (.sh 6#5 7#5 1#32) ∧
    decode 0b11111110011100110010111100100011#32 = .ok (.sw 6#5 7#5 0xFFFFFFFE#32) := by decide

/-- FENCE: reserved 0000, pred 0000, succ 0001 (95, 2.3). -/
theorem test_decode_miscMem :
    decode 0b00000000000100000000000000001111#32 = .ok (.fence 0#4 1#4) ∧
    decode 0x0330000F#32 = .ok (.fence 3#4 3#4) ∧
    decode 0x0FF0100F#32 = .ok .fenceI := by decide

/-- CSRRWI: csr 0x300, uimm 5, funct3 101, rd 5 (R287). -/
theorem test_decode_system :
    decode 0x00000073#32 = .ok .ecall ∧
    decode 0x00100073#32 = .ok .ebreak ∧
    decode 0xC0001073#32 = .ok (.csrrw 0#5 0#5 0xC00#12) ∧
    decode 0xC00022F3#32 = .ok (.csrrs 5#5 0#5 0xC00#12) ∧
    decode 0x300332F3#32 = .ok (.csrrc 5#5 6#5 0x300#12) ∧
    decode 0b00110000000000101101001011110011#32 = .ok (.csrrwi 5#5 5#5 0x300#12) ∧
    decode 0x3002E2F3#32 = .ok (.csrrsi 5#5 5#5 0x300#12) ∧
    decode 0x300FF2F3#32 = .ok (.csrrci 5#5 31#5 0x300#12) := by decide

/-- The refused words of 95_test_vectors.md 2.3. -/
theorem test_decode_faults :
    decode 0x0000000B#32 = .error (.invalidInstruction 0x0000000B#32 0x0B#7) ∧
    decode 0x02730333#32 = .error (.formatError .r 0x02730333#32 0x33#7) ∧
    decode 0x407312B3#32 = .error (.formatError .r 0x407312B3#32 0x33#7) ∧
    decode 0x60435293#32 = .error (.formatError .r 0x60435293#32 0x13#7) ∧
    decode 0x000110E7#32 = .error (.formatError .i 0x000110E7#32 0x67#7) ∧
    decode 0x00733023#32 = .error (.formatError .s 0x00733023#32 0x23#7) ∧
    decode 0x00002063#32 = .error (.formatError .b 0x00002063#32 0x63#7) ∧
    decode 0x0000300F#32 = .error (.formatError .fence 0x0000300F#32 0x0F#7) ∧
    decode 0x8330000F#32 = .error (.invalidFence 0x8330000F#32 0x0F#7) ∧
    decode 0x000000F3#32 = .error (.formatError .i 0x000000F3#32 0x73#7) := by decide

/-- A row's word reaches the decoder as the hardware stores it (R100). -/
theorem test_decodeTableWord : decodeTableWord 32 0x7FF00193 = some (.addi 3#5 0#5 2047#32) := by decide

/-! ## One step on a small state -/

/-- The segments and words of 43_load_store.md: 0x8899AABB at 0x800 and 0x11223344 at 0x804. -/
def mem0 : Memory :=
  ((⟨[⟨0x0#32, 0x1000⟩, ⟨0x1000#32, 0x1000⟩, ⟨0xFFFFF000#32, 0x1000⟩], []⟩ : Memory).pokeBytes 0x800 .word
    0x8899AABB#32).pokeBytes 0x804 .word 0x11223344#32

/-- A state at `pc` with `mem0`, the parameters and the registers given, and `word` stored at pc. -/
def at' (p : Params) (pc word : Word) (regs : List (RegIdx × Word)) : State :=
  regs.foldl (fun s r => s.setReg r.1 r.2)
    { State.new p with pc := pc, mem := mem0.pokeBytes pc.toNat .word word }

/-- The same at pc = 0x100 with the default parameters. -/
def at100 (word : Word) (regs : List (RegIdx × Word)) : State := at' .default 0x100#32 word regs

/-- The register and the pc after one step, if it goes on. -/
def regPc (s : State) (i : RegIdx) : Option (Word × Word) :=
  match step s with
  | .next t => some (t.reg i, t.pc)
  | _ => none

/-- The fault of one step, if it faults. -/
def faultOf (s : State) : Option Fault :=
  match step s with
  | .fault e => some e
  | _ => none

/-- The `n` bytes at `a` after one step, if it goes on. -/
def bytesAfter (s : State) (a n : Nat) : Option (List Byte) :=
  match step s with
  | .next t => some ((List.range n).map fun k => t.mem.peek (a + k))
  | _ => none
/-! ### Integer computational (95_test_vectors.md 2.4 and the rules' examples) -/

/-- R203 -/
theorem test_lui : regPc (at100 0x123452B7#32 []) 5#5 = some (0x12345000#32, 0x104#32) := by decide

/-- 2.4 -/
theorem test_lui_x0 : regPc (at100 0x12345037#32 []) 0#5 = some (0x0#32, 0x104#32) := by decide

/-- R204 -/
theorem test_auipc : regPc (at100 0x00001297#32 []) 5#5 = some (0x1100#32, 0x104#32) := by decide

/-- 2.4 -/
theorem test_auipc_wraps : regPc (at100 0xFFFFF297#32 []) 5#5 = some (0xFFFFF100#32, 0x104#32) := by decide

/-- 2.4 -/
theorem test_addi_wraps : regPc (at100 0x00130293#32 [(6#5, 0xFFFFFFFF#32)]) 5#5 = some (0x0#32, 0x104#32) := by decide

/-- 2.4 -/
theorem test_addi_negative : regPc (at100 0x80030293#32 [(6#5, 0x0#32)]) 5#5 = some (0xFFFFF800#32, 0x104#32) := by decide

/-- 2.4 -/
theorem test_slti : regPc (at100 0x00032293#32 [(6#5, 0x80000000#32)]) 5#5 = some (0x1#32, 0x104#32) := by decide

/-- 2.4 -/
theorem test_slti_no : regPc (at100 0x80032293#32 [(6#5, 0x7FFFFFFF#32)]) 5#5 = some (0x0#32, 0x104#32) := by decide

/-- 2.4 -/
theorem test_sltiu_no : regPc (at100 0xFFF33293#32 [(6#5, 0xFFFFFFFF#32)]) 5#5 = some (0x0#32, 0x104#32) := by decide

/-- R207 -/
theorem test_sltiu : regPc (at100 0xFFF33293#32 [(6#5, 0xFFFFFFFE#32)]) 5#5 = some (0x1#32, 0x104#32) := by decide

/-- 2.4 -/
theorem test_xori : regPc (at100 0x55534293#32 [(6#5, 0xFFFF0000#32)]) 5#5 = some (0xFFFF0555#32, 0x104#32) := by decide

/-- R209 -/
theorem test_ori : regPc (at100 0x80036293#32 [(6#5, 0x0#32)]) 5#5 = some (0xFFFFF800#32, 0x104#32) := by decide

/-- R210 -/
theorem test_andi : regPc (at100 0xFF037293#32 [(6#5, 0x12345678#32)]) 5#5 = some (0x12345670#32, 0x104#32) := by decide

/-- 2.4 -/
theorem test_slli : regPc (at100 0x00431293#32 [(6#5, 0x89ABCDEF#32)]) 5#5 = some (0x9ABCDEF0#32, 0x104#32) := by decide

/-- 2.4 -/
theorem test_srli : regPc (at100 0x01F35293#32 [(6#5, 0x7FFFFFFF#32)]) 5#5 = some (0x0#32, 0x104#32) := by decide

/-- R213 -/
theorem test_srai : regPc (at100 0x40435293#32 [(6#5, 0x80000000#32)]) 5#5 = some (0xF8000000#32, 0x104#32) := by decide

/-- 2.4 -/
theorem test_srai_31 : regPc (at100 0x41F35293#32 [(6#5, 0x80000000#32)]) 5#5 = some (0xFFFFFFFF#32, 0x104#32) := by decide

/-- 2.4 -/
theorem test_add_wraps : regPc (at100 0x007302B3#32 [(6#5, 0xFFFFFFFF#32), (7#5, 0xFFFFFFFF#32)]) 5#5 = some (0xFFFFFFFE#32, 0x104#32) := by decide

/-- 2.4 -/
theorem test_add_same : regPc (at100 0x005282B3#32 [(5#5, 0x3#32)]) 5#5 = some (0x6#32, 0x104#32) := by decide

/-- 2.4 -/
theorem test_sub : regPc (at100 0x407302B3#32 [(6#5, 0x80000000#32), (7#5, 0x1#32)]) 5#5 = some (0x7FFFFFFF#32, 0x104#32) := by decide

/-- 2.4 -/
theorem test_sll_32 : regPc (at100 0x007312B3#32 [(6#5, 0x1#32), (7#5, 0x20#32)]) 5#5 = some (0x1#32, 0x104#32) := by decide

/-- 2.4 -/
theorem test_sll_31 : regPc (at100 0x007312B3#32 [(6#5, 0x1#32), (7#5, 0xFFFFFFFF#32)]) 5#5 = some (0x80000000#32, 0x104#32) := by decide

/-- 2.4 -/
theorem test_slt : regPc (at100 0x007322B3#32 [(6#5, 0xFFFFFFFF#32), (7#5, 0x0#32)]) 5#5 = some (0x1#32, 0x104#32) := by decide

/-- 2.4 -/
theorem test_sltu : regPc (at100 0x007332B3#32 [(6#5, 0x0#32), (7#5, 0xFFFFFFFF#32)]) 5#5 = some (0x1#32, 0x104#32) := by decide

/-- R218 -/
theorem test_sltu_no : regPc (at100 0x007332B3#32 [(6#5, 0x80000000#32), (7#5, 0x7FFFFFFF#32)]) 5#5 = some (0x0#32, 0x104#32) := by decide

/-- R219 -/
theorem test_xor : regPc (at100 0x007342B3#32 [(6#5, 0xFF00FF00#32), (7#5, 0xFF00FF0#32)]) 5#5 = some (0xF0F0F0F0#32, 0x104#32) := by decide

/-- R220 -/
theorem test_srl : regPc (at100 0x007352B3#32 [(6#5, 0x80000000#32), (7#5, 0x24#32)]) 5#5 = some (0x8000000#32, 0x104#32) := by decide

/-- R221 -/
theorem test_sra : regPc (at100 0x407352B3#32 [(6#5, 0x80000000#32), (7#5, 0x24#32)]) 5#5 = some (0xF8000000#32, 0x104#32) := by decide

/-- 2.4 -/
theorem test_sra_positive : regPc (at100 0x407352B3#32 [(6#5, 0x40000000#32), (7#5, 0x3F#32)]) 5#5 = some (0x0#32, 0x104#32) := by decide

/-- R222 -/
theorem test_or : regPc (at100 0x007362B3#32 [(6#5, 0xFF00FF00#32), (7#5, 0xFF00FF0#32)]) 5#5 = some (0xFFF0FFF0#32, 0x104#32) := by decide

/-- R223 -/
theorem test_and : regPc (at100 0x007372B3#32 [(6#5, 0xFF00FF00#32), (7#5, 0xFF00FF0#32)]) 5#5 = some (0xF000F00#32, 0x104#32) := by decide

/-! ### Control transfer (95_test_vectors.md 2.5) -/

/-- R241 -/
theorem test_jal : regPc (at100 0x01000FEF#32 []) 31#5 = some (0x104#32, 0x110#32) := by decide

/-- 2.5: the immediate is aligned, the target is not, and there is no fault. -/
theorem test_jal_at_2mod4 :
    regPc (at' .default 0x102#32 0x004000EF#32 []) 1#5 = some (0x106#32, 0x106#32) := by decide

/-- 2.5: the target is aligned, the immediate is not. -/
theorem test_jal_faults :
    faultOf (at' .default 0x102#32 0x006000EF#32 []) = some (.execute (.misalignedAddress 0x108#32)) := by decide

/-- 2.5: the default reads the old base. -/
theorem test_jalr_same_register : regPc (at100 0x000080E7#32 [(1#5, 0x200#32)]) 1#5 = some (0x104#32, 0x200#32) := by
  decide

/-- 2.5: jalr_link_first reads the link. -/
theorem test_jalr_link_first :
    regPc (at' ⟨.fault, true⟩ 0x100#32 0x000080E7#32 [(1#5, 0x200#32)]) 1#5 = some (0x104#32, 0x104#32) := by decide

/-- 2.5: an odd sum loses bit 0, then bit 1 faults. -/
theorem test_jalr_faults :
    faultOf (at100 0x000100E7#32 [(2#5, 0x203#32)]) = some (.execute (.misalignedAddress 0x202#32)) := by decide

/-- E7 -/
theorem test_beq : regPc (at100 0x00208863#32 [(1#5, 0x5#32), (2#5, 0x5#32)]) 0#5 = some (0x0#32, 0x110#32) := by decide

/-- 2.5 -/
theorem test_beq_2mod4 : regPc (at100 0x00000163#32 []) 0#5 = some (0x0#32, 0x102#32) := by decide

/-- R247 -/
theorem test_bne : regPc (at100 0xFE209EE3#32 [(1#5, 0x5#32), (2#5, 0x6#32)]) 0#5 = some (0x0#32, 0xFC#32) := by decide

/-- 2.5 -/
theorem test_bne_same : regPc (at100 0x00109463#32 [(1#5, 0x1#32)]) 0#5 = some (0x0#32, 0x104#32) := by decide

/-- 2.5 -/
theorem test_blt : regPc (at100 0x0020C463#32 [(1#5, 0x80000000#32), (2#5, 0x7FFFFFFF#32)]) 0#5 = some (0x0#32, 0x108#32) := by decide

/-- 2.5 -/
theorem test_bge : regPc (at100 0x0020D463#32 [(1#5, 0x0#32), (2#5, 0xFFFFFFFF#32)]) 0#5 = some (0x0#32, 0x108#32) := by decide

/-- R249 -/
theorem test_bge_no : regPc (at100 0x0020D463#32 [(1#5, 0xFFFFFFFF#32), (2#5, 0x1#32)]) 0#5 = some (0x0#32, 0x104#32) := by decide

/-- 2.5 -/
theorem test_bltu : regPc (at100 0x0020E463#32 [(1#5, 0x0#32), (2#5, 0xFFFFFFFF#32)]) 0#5 = some (0x0#32, 0x108#32) := by decide

/-- R250 -/
theorem test_bltu_no : regPc (at100 0x0020E463#32 [(1#5, 0xFFFFFFFF#32), (2#5, 0x1#32)]) 0#5 = some (0x0#32, 0x104#32) := by decide

/-- 2.5 -/
theorem test_bgeu : regPc (at100 0x7E00FFE3#32 [(1#5, 0x0#32)]) 0#5 = some (0x0#32, 0x10FE#32) := by decide

/-- 2.5 -/
theorem test_bgeu_no : regPc (at100 0x0020F463#32 [(1#5, 0x0#32), (2#5, 0xFFFFFFFF#32)]) 0#5 = some (0x0#32, 0x104#32) := by decide

/-! ### Loads and stores (95_test_vectors.md 2.6) -/

/-- 2.6 -/
theorem test_lb : regPc (at100 0x00130283#32 [(6#5, 0x800#32)]) 5#5 = some (0xFFFFFFAA#32, 0x104#32) := by decide

/-- 2.6 -/
theorem test_lb_positive : regPc (at100 0xFFF30283#32 [(6#5, 0x805#32)]) 5#5 = some (0x44#32, 0x104#32) := by decide

/-- 2.6 -/
theorem test_lh : regPc (at100 0x00131283#32 [(6#5, 0x800#32)]) 5#5 = some (0xFFFF99AA#32, 0x104#32) := by decide

/-- 2.6 -/
theorem test_lw : regPc (at100 0x00132283#32 [(6#5, 0x800#32)]) 5#5 = some (0x448899AA#32, 0x104#32) := by decide

/-- 2.6 -/
theorem test_lw_own_base : regPc (at100 0x00032303#32 [(6#5, 0x800#32)]) 6#5 = some (0x8899AABB#32, 0x104#32) := by decide

/-- 2.6 -/
theorem test_lbu : regPc (at100 0x00334283#32 [(6#5, 0x800#32)]) 5#5 = some (0x88#32, 0x104#32) := by decide

/-- 2.6 -/
theorem test_lhu : regPc (at100 0x00035283#32 [(6#5, 0x800#32)]) 5#5 = some (0xAABB#32, 0x104#32) := by decide

/-- 2.6: although rd = x0. -/
theorem test_lw_x0_faults :
    faultOf (at100 0x00032003#32 [(6#5, 0x3000#32)]) = some (.execute (.memory (.unmappedRegion 0x3000#32))) := by decide

/-- 2.6: no wrap past 2^32. -/
theorem test_lh_no_wrap :
    faultOf (at100 0x00031283#32 [(6#5, 0xFFFFFFFF#32)]) = some (.execute (.memory (.unmappedRegion 0x0#32))) := by decide

/-- 2.6 -/
theorem test_sb : bytesAfter (at100 0x00730023#32 [(6#5, 0x800#32), (7#5, 0x12345678#32)]) 0x800 2 =
    some [0x78#8, 0xAA#8] := by decide

/-- 2.6 -/
theorem test_sh : bytesAfter (at100 0x00731023#32 [(6#5, 0x800#32), (7#5, 0x12345678#32)]) 0x800 3 =
    some [0x78#8, 0x56#8, 0x99#8] := by decide

/-- 2.6: under Discard the second byte is dropped, with no wrap to 0x0. -/
theorem test_sh_discard :
    bytesAfter (at' ⟨.discard, false⟩ 0x100#32 0x00731023#32 [(6#5, 0xFFFFFFFF#32), (7#5, 0xA1B2C3D4#32)]) 0xFFFFFFFF 1 =
    some [0xD4#8] := by decide

/-- 2.6: across two segments. -/
theorem test_sw : bytesAfter (at100 0xFE732F23#32 [(6#5, 0x1000#32), (7#5, 0xA1B2C3D4#32)]) 0xFFE 4 =
    some [0xD4#8, 0xC3#8, 0xB2#8, 0xA1#8] := by decide

/-- 2.6 -/
theorem test_sw_faults : faultOf (at100 0x00732023#32 [(6#5, 0x1FFE#32), (7#5, 0xA1B2C3D4#32)]) =
    some (.execute (.memory (.unmappedRegion 0x2000#32))) := by decide

/-! ### Fences, halts and CSR instructions (95_test_vectors.md 2.7) -/

/-- 2.7 -/
theorem test_fence : regPc (at100 0x0100000F#32 []) 0#5 = some (0x0#32, 0x104#32) := by decide

/-- 2.7 -/
theorem test_fence_i : regPc (at100 0x0000100F#32 []) 0#5 = some (0x0#32, 0x104#32) := by decide

/-- R284 -/
theorem test_csrrw : regPc (at100 0x300312F3#32 [(5#5, 0x1234#32), (6#5, 0x55#32)]) 5#5 = some (0x1234#32, 0x104#32) := by decide

/-- R285 -/
theorem test_csrrs : regPc (at100 0xC00022F3#32 [(5#5, 0x1234#32)]) 5#5 = some (0x1234#32, 0x104#32) := by decide

/-- 2.7 -/
theorem test_csrrc : regPc (at100 0x300332F3#32 [(5#5, 0x1234#32)]) 5#5 = some (0x1234#32, 0x104#32) := by decide

/-- 2.7 -/
theorem test_csrrwi : regPc (at100 0x3002D2F3#32 [(5#5, 0x1234#32)]) 5#5 = some (0x1234#32, 0x104#32) := by decide

/-- 2.7 -/
theorem test_csrrsi : regPc (at100 0x3002E2F3#32 [(5#5, 0x1234#32)]) 5#5 = some (0x1234#32, 0x104#32) := by decide

/-- 2.7 -/
theorem test_csrrci : regPc (at100 0x300FF2F3#32 [(5#5, 0x1234#32)]) 5#5 = some (0x1234#32, 0x104#32) := by decide

/-- The pc and run-state after one step recorded by the run entry points. -/
def pcRun (s : State) : Word × RunState := (s.afterStep.pc, s.afterStep.run)

/-- 2.7 -/
theorem test_ecall : pcRun (at' .default 0x10C#32 0x00000073#32 []) = (0x110#32, .halted .ecall) := by decide

/-- 2.7 -/
theorem test_ebreak : pcRun (at' .default 0x200#32 0x00100073#32 []) = (0x204#32, .halted .ebreak) := by decide

/-- C4: a decode fault, recorded, the pc as it was. -/
theorem test_decode_fault_recorded :
    pcRun (at100 0x00000000#32 []) = (0x100#32, .faulted (.decode (.invalidInstruction 0#32 0#7))) := by decide

/-! ### Memory, setup, launch and runs (95_test_vectors.md 2.1, 2.2) -/

/-- Segments of M1-M3. -/
def oneSegment : State := { State.reset with mem := ⟨[⟨0x1000#32, 0x1000⟩], []⟩ }

/-- Whether add_segment answers a next state, a fault or a refusal. -/
def addKind (s : State) (base : Word) (size : Nat) : String :=
  match s.addSegment base size with
  | .next _ => "ok"
  | .fault (.memory .alreadyMappedRegion) => "AlreadyMappedRegion"
  | .fault _ => "fault"
  | .refused _ => "refused"

/-- M1, M2, M3, M4. -/
theorem test_addSegment :
    addKind oneSegment 0x1800#32 0x1000 = "AlreadyMappedRegion" ∧ addKind oneSegment 0x2000#32 0x100 = "ok" ∧
    addKind oneSegment 0x0F00#32 0x101 = "AlreadyMappedRegion" ∧ addKind oneSegment 0x3000#32 0 = "refused" ∧
    addKind oneSegment 0xFFFFFF00#32 0x200 = "refused" := by decide

/-- M7, M8. -/
theorem test_read_faults :
    mem0.read 0x1FFE#32 .word = .error (.unmappedRegion 0x2000#32) ∧
    mem0.read 0xFFFFFFFE#32 .word = .error (.unmappedRegion 0x0#32) := by decide

/-- C1, C2. -/
theorem test_fetch_faults :
    faultOf { State.reset with pc := 0x2000#32, mem := mem0 } = some (.memory (.unmappedRegion 0x2000#32)) ∧
    faultOf { State.reset with pc := 0x1FFE#32, mem := mem0 } = some (.memory (.unmappedRegion 0x2000#32)) := by decide

/-- C5, C6. -/
theorem test_run_entry_points :
    (State.reset.halt .ecall).runToEnd 3 = some (State.reset.halt .ecall) ∧
    State.reset.runForSteps 0 = (State.reset, none) := by decide

/-- P6's launch: one instruction at 0xFC, then off the end of the segment. -/
def launchP6 : Launch :=
  { segments := [(0x0#32, 0x100)]
    bytes := [(0xFC#32, 0x93#8), (0xFD#32, 0x02#8), (0xFE#32, 0x70#8), (0xFF#32, 0x00#8)]
    regs := Vector.replicate 31 0#32
    pc0 := 0xFC#32 }

/-- x5, the pc and the run-state of P6 after run(). -/
theorem test_launch_P6 :
    (match launchP6.state .default with
      | .next s => (s.runToEnd 2).map fun t => (t.reg 5#5, t.pc, t.run)
      | _ => none) = some (7#32, 0x100#32, .faulted (.memory (.unmappedRegion 0x100#32))) := by decide

/-- A launch byte outside every segment is refused (R343). -/
theorem test_launch_refused :
    (match { launchP6 with bytes := [(0x100#32, 1#8)] : Launch }.state .default with
      | .refused r => some r
      | _ => none) = some .launchByteUnmapped := by decide

/-- The host's placed word runs as the first instruction after reset. -/
theorem test_withFetchWord : regPc (State.reset.withFetchWord 32 0x7FF00193) 3#5 = some (2047#32, 4#32) := by decide

/-! ## Witnesses: concrete states and operands that meet the hypotheses of each obligation

One theorem per obligation that has hypotheses, named after it; a clause at a boundary of its range has its own part. -/

/-- A step whose fault is computed to be `e` answers it. -/
theorem step_fault_of {s : State} {e : Fault} (h : faultOf s = some e) : step s = .fault e := by
  unfold faultOf at h
  split at h
  · next he => rw [he, Option.some.inj h]
  · cases h

/-- Whether a step goes on. -/
def stepGoes (s : State) : Bool :=
  match step s with
  | .next _ => true
  | _ => false

theorem step_next_of {s : State} (h : stepGoes s = true) : ∃ t, step s = .next t := by
  unfold stepGoes at h
  split at h
  · next t ht => exact ⟨t, ht⟩
  · cases h

/-- Whether an instruction goes on. -/
def goes (i : Instr) (s : State) : Bool :=
  match exec i s with
  | .next _ => true
  | _ => false

theorem next_of {i : Instr} {s : State} (h : goes i s = true) : ∃ t, exec i s = .next t := by
  unfold goes at h
  split at h
  · next t ht => exact ⟨t, ht⟩
  · cases h

/-- Whether a launch is accepted. -/
def launches (l : Launch) (p : Params) : Bool :=
  match l.state p with
  | .next _ => true
  | _ => false

theorem launch_of {l : Launch} {p : Params} (h : launches l p = true) : ∃ t, l.state p = .next t := by
  unfold launches at h
  split at h
  · next t ht => exact ⟨t, ht⟩
  · cases h

/-- `mem0` at pc = 0x100 with x6 = 0x800, x7 = 0x11223344, x8 = 0xFFFFFFFC, x9 = 0x1FFE. -/
def s0 : State := at100 0x00000013#32 [(6#5, 0x800#32), (7#5, 0x11223344#32), (8#5, 0xFFFFFFFC#32), (9#5, 0x1FFE#32)]

/-- The same under Discard and jalr_link_first. -/
def s1 : State := { s0 with params := ⟨.discard, true⟩ }

/-! ### Decoding and encoding -/

/-- Each immediate at the ends of its range; the operandless instructions. -/
theorem witness_DecodeOfEncode :
    [Instr.lui 31#5 0xFFFFF000#32, .auipc 0#5 0#32, .addi 1#5 31#5 2047#32, .xori 1#5 2#5 0xFFFFF800#32,
      .srai 1#5 2#5 31#5, .and 31#5 31#5 31#5, .jal 1#5 0xFFF00000#32, .jal 1#5 0xFFFFE#32, .jalr 1#5 2#5 2047#32,
      .beq 1#5 2#5 0xFFFFF000#32, .bgeu 1#5 2#5 4094#32, .lw 1#5 2#5 0xFFFFF800#32, .sw 1#5 2#5 2047#32,
      .fence 15#4 15#4, .fenceI, .ecall, .ebreak, .csrrw 1#5 2#5 0xFFF#12, .csrrci 1#5 31#5 0#12].all
      (fun i => i.wellFormed) = true := by decide

theorem witness_EncodeOfDecode :
    decode 0xFE209EE3#32 = .ok (.bne 1#5 2#5 0xFFFFFFFC#32) ∧ Instr.bne 1#5 2#5 0xFFFFFFFC#32 ≠ .fenceI := by decide

theorem witness_DecodedIsWellFormed :
    decode 0x80000E63#32 = .ok (.beq 0#5 0#5 0xFFFFF01C#32) ∧ decode 0xFFFFF0B7#32 = .ok (.lui 1#5 0xFFFFF000#32) := by
  decide

/-- Both sides of the equivalence. -/
theorem witness_UnrecognizedOpcode :
    (0x0000000B#32).extractLsb' 0 7 = 0b0001011#7 ∧ (0x00000013#32).extractLsb' 0 7 = 0b0010011#7 ∧
    decode 0x0000000B#32 = .error (.invalidInstruction 0x0000000B#32 0b0001011#7) ∧
    decode 0x00000013#32 = .ok (.addi 0#5 0#5 0#32) := by decide

theorem witness_DecodeFaultCarriesWord :
    decode 0x0000000B#32 = .error (.invalidInstruction 0x0000000B#32 0x0B#7) ∧
    decode 0x8330000F#32 = .error (.invalidFence 0x8330000F#32 0x0F#7) ∧
    decode 0x0000200F#32 = .error (.formatError .fence 0x0000200F#32 0x0F#7) := by decide

/-- The check failing on rd, rs1 or the reserved field; funct3 000, 001 and 010. -/
theorem witness_MiscMemDecode :
    [0x0000008F#32, 0x0000800F#32, 0x1000000F#32, 0x0FF0000F#32, 0x0FF0100F#32, 0x0000200F#32].all
      (fun w => w.extractLsb' 0 7 == 0b0001111#7) = true := by decide

/-- Each funct3 of SYSTEM. -/
theorem witness_SystemDecode :
    [0x00000073#32, 0x00001073#32, 0x00002073#32, 0x00003073#32, 0x00004073#32, 0x00005073#32, 0x00006073#32,
      0x00007073#32].map (fun w => (w.extractLsb' 0 7, w.extractLsb' 12 3)) =
    (List.range 8).map (fun k => (0b1110011#7, BitVec.ofNat 3 k)) := by decide

/-- One word for each clause, in order; funct3 = 3 is the lowest refused one of the stores. -/
theorem witness_UnmatchedFunctFaults :
    [0x00001067#32, 0x00002063#32, 0x00003003#32, 0x00003023#32, 0x02001013#32, 0x60005013#32, 0x40001033#32,
      0x02000033#32].map (fun w => (w.extractLsb' 0 7, w.extractLsb' 12 3, w.extractLsb' 25 7)) =
    [(0b1100111#7, 1#3, 0#7), (0b1100011#7, 2#3, 0#7), (0b0000011#7, 3#3, 0#7), (0b0100011#7, 3#3, 0#7),
      (0b0010011#7, 1#3, 1#7), (0b0010011#7, 5#3, 0b0110000#7), (0b0110011#7, 1#3, 0b0100000#7),
      (0b0110011#7, 0#3, 1#7)] := by decide

/-- One word for each clause, in order. -/
theorem witness_IllegalSpaceFaults :
    (0x00000001#32).extractLsb' 0 2 ≠ 0b11#2 ∧
    (0x0000000B#32).extractLsb' 0 7 = 0b0001011#7 ∧ (0x00000057#32).extractLsb' 0 7 = 0b1010111#7 ∧
    (0x02730333#32).extractLsb' 0 7 = 0b0110011#7 ∧ (0x02730333#32).extractLsb' 25 7 = 1#7 ∧
    (0x8330000F#32).extractLsb' 0 7 = 0b0001111#7 ∧ (0x8330000F#32).extractLsb' 28 4 = 0b1000#4 ∧
    (0x10500073#32).extractLsb' 0 7 = 0b1110011#7 ∧ (0x10500073#32).extractLsb' 12 3 = 0b000#3 := by decide

/-! ### Registers, pc and memory -/

/-- The first and the last stored register. -/
theorem witness_ReadPort : (1#5 : RegIdx) ≠ 0#5 ∧ (31#5 : RegIdx) ≠ 0#5 := by decide

theorem witness_WritePort : (31#5 : RegIdx) ≠ 0#5 ∧ (1#5 : RegIdx) ≠ 31#5 ∧ (0#5 : RegIdx) ≠ 31#5 := by decide

theorem witness_PcWraps :
    (State.reset.setPc 0xFFFFFFFC#32).pc = 0xFFFFFFFC#32 ∧ (State.reset.setPc 0xFFFFFFFF#32).pc = 0xFFFFFFFF#32 := by
  decide

/-- Two touching segments: the last byte of one and the first of the next. -/
theorem witness_MappedByOneSegment :
    mem0.wf ∧ (⟨0x0#32, 0x1000⟩ : Segment) ∈ mem0.segs ∧ (⟨0x1000#32, 0x1000⟩ : Segment) ∈ mem0.segs ∧
    (0x0#32).toNat ≤ (0xFFF#32).toNat ∧ (0xFFF#32).toNat < (0x0#32).toNat + 0x1000 ∧
    (0x1000#32).toNat ≤ (0x1000#32).toNat ∧ mem0.mapped 0x2000 = false := by decide

/-- The bytes of a word ending at 2^32; a missing byte as the first, a later and the last one of a word. -/
theorem witness_ReadComposesBytes :
    ((0xFFFFFFFC#32).toNat + 4 ≤ 2 ^ 32 ∧
      ∀ k < 4, mem0.readByte (BitVec.ofNat 32 ((0xFFFFFFFC#32).toNat + k)) = .ok 0#8) ∧
    mem0.LowestMissing 0x2000#32 4 0 ∧ mem0.LowestMissing 0x1FFE#32 4 2 ∧ mem0.LowestMissing 0xFFFFFFFD#32 4 3 := by
  decide

theorem witness_NoWrapPastTop :
    2 ^ 32 < (0xFFFFFFFD#32).toNat + Width.word.bytes ∧ 2 ^ 32 < (0xFFFFFFFF#32).toNat + Width.half.bytes ∧
    (∀ k < 3, mem0.HasByte ((0xFFFFFFFD#32).toNat + k)) ∧ ¬ (0xFFFFFFFD#32).toNat + 3 < 2 ^ 32 ∧
    (0xFFFFFFFC#32).toNat < (0xFFFFFFFD#32).toNat := by decide

/-- A word across two segments; a missing last byte of a halfword. -/
theorem witness_FaultingWriteIsAllOrNothing :
    (∀ k < Width.word.bytes, mem0.HasByte ((0xFFE#32).toNat + k)) ∧
    mem0.LowestMissing 0x1FFF#32 Width.half.bytes 1 ∧ mem0.LowestMissing 0xFFFFEFFF#32 Width.byte.bytes 0 := by decide

theorem witness_DiscardingWriteKeepsMapped :
    0 < Width.half.bytes ∧ mem0.HasByte ((0x1FFF#32).toNat + 0) ∧ ¬ mem0.HasByte (0x2000#32).toNat ∧
    (0x1FFE#32).toNat < (0x1FFF#32).toNat ∧ (0x1FFF#32).toNat + Width.half.bytes ≤ (0x2001#32).toNat := by decide

theorem witness_WordRoundTrip :
    (∀ k < 4, mem0.HasByte ((0xFFFFFFFC#32).toNat + k)) ∧ (∀ k < 4, mem0.HasByte ((0x0#32).toNat + k)) := by decide

theorem witness_SegmentsNeverChange : ∃ t, exec (.sw 6#5 7#5 0#32) s0 = .next t := next_of (by decide)

/-- Started; empty, and one byte too long; an overlap by one byte; a segment that only touches another. -/
theorem witness_AddSegmentAnswers :
    s0.Inv ∧ ({ s0 with started := true } : State).started = true ∧ s0.started = false ∧
    2 ^ 32 < (0xFFFFFFFF#32).toNat + 2 ∧
    ((0x1FFF#32).toNat + 1 ≤ 2 ^ 32 ∧ ∃ g ∈ s0.mem.segs, g.base.toNat < (0x1FFF#32).toNat + 1 ∧
      (0x1FFF#32).toNat < g.base.toNat + g.size) ∧
    ((0x2000#32).toNat + 0xFFFFD000 ≤ 2 ^ 32 ∧ ¬ ∃ g ∈ s0.mem.segs, g.base.toNat < (0x2000#32).toNat + 0xFFFFD000 ∧
      (0x2000#32).toNat < g.base.toNat + g.size) := by decide

theorem witness_AlreadyMappedOnlyFromSetup :
    oneSegment.addSegment 0x1FFF#32 1 = .fault (.memory .alreadyMappedRegion) := rfl

/-! ### The step -/

/-- A fetch whose second half is missing; a word that does not decode; one that does. -/
theorem witness_StepRunsDecoded :
    ({ s0 with pc := 0x1FFE#32 } : State).mem.LowestMissing 0x1FFE#32 4 2 ∧
    (s0.pc.toNat + 4 ≤ 2 ^ 32 ∧ s0.mem.readByte s0.pc = .ok 0x13#8 ∧ s0.mem.readByte (s0.pc + 1#32) = .ok 0#8 ∧
      s0.mem.readByte (s0.pc + 2#32) = .ok 0#8 ∧ s0.mem.readByte (s0.pc + 3#32) = .ok 0#8 ∧
      decode (0#8 ++ 0#8 ++ 0#8 ++ 0x13#8) = .ok (.addi 0#5 0#5 0#32)) ∧
    decode (0#8 ++ 0#8 ++ 0#8 ++ 0#8) = .error (.invalidInstruction 0#32 0#7) := by decide

/-- The last pc with four bytes left, and the pc of reset. -/
theorem witness_PlacedWordRuns :
    (0xFFFFFFFC#32).toNat + 4 ≤ 2 ^ 32 ∧ State.reset.pc.toNat + 4 ≤ 2 ^ 32 ∧ State.reset.Inv ∧
    decode 0x00000073#32 = .ok .ecall := by decide

/-- Each of the causes of the table, the memory fault by a load and by a store. -/
theorem witness_FaultCauseTable :
    step { s0 with pc := 0x1FFE#32 } = .fault (.memory (.unmappedRegion 0x2000#32)) ∧
    step (at100 0x0000000B#32 []) = .fault (.decode (.invalidInstruction 0x0000000B#32 0x0B#7)) ∧
    step (at100 0x8330000F#32 []) = .fault (.decode (.invalidFence 0x8330000F#32 0x0F#7)) ∧
    step (at100 0x02730333#32 []) = .fault (.decode (.formatError .r 0x02730333#32 0x33#7)) ∧
    step (at100 0x002000EF#32 []) = .fault (.execute (.misalignedAddress 0x102#32)) ∧
    step (at100 0x000100E7#32 [(2#5, 0x203#32)]) = .fault (.execute (.misalignedAddress 0x202#32)) ∧
    step (at100 0x00032283#32 [(6#5, 0x1FFE#32)]) = .fault (.execute (.memory (.unmappedRegion 0x2000#32))) ∧
    step (at100 0x00731023#32 [(6#5, 0xFFFFFFFF#32)]) = .fault (.execute (.memory (.unmappedRegion 0x0#32))) :=
  ⟨step_fault_of (by decide), step_fault_of (by decide), step_fault_of (by decide), step_fault_of (by decide),
    step_fault_of (by decide), step_fault_of (by decide), step_fault_of (by decide), step_fault_of (by decide)⟩

theorem witness_FaultChangesNothing :
    step (at100 0x002000EF#32 []) = .fault (.execute (.misalignedAddress 0x102#32)) := step_fault_of (by decide)

theorem witness_FaultRepeats : step State.reset = .fault (.memory (.unmappedRegion 0#32)) := step_fault_of (by decide)

/-! ### All instructions -/

/-- A store, a register write, a halt. -/
theorem witness_InstructionFrame :
    (∃ t, exec (.sh 6#5 7#5 1#32) s0 = .next t) ∧ (∃ t, exec (.sub 31#5 6#5 7#5) s0 = .next t) ∧
    (∃ t, exec .ecall s0 = .next t) ∧ (Instr.sub 31#5 6#5 7#5).dest ≠ some 6#5 ∧
    (Instr.sub 31#5 6#5 7#5).stores = none ∧ (Instr.sh 6#5 7#5 1#32).stores = some (.half, 6#5, 1#32) ∧
    (0x800#32).toNat < (s0.reg 6#5 + 1#32).toNat ∧ (s0.reg 6#5 + 1#32).toNat + Width.half.bytes ≤ (0x803#32).toNat :=
  ⟨next_of (by decide), next_of (by decide), next_of (by decide), by decide, by decide, by decide, by decide, by decide⟩

/-- Every kind of next pc. -/
theorem witness_NextPcTable :
    (∃ t, exec (.jal 1#5 0xFFFFFF00#32) s0 = .next t) ∧ (∃ t, exec (.jalr 6#5 6#5 1#32) s1 = .next t) ∧
    (∃ t, exec (.beq 6#5 7#5 2#32) s0 = .next t) ∧ (∃ t, exec (.bltu 6#5 7#5 2#32) s0 = .next t) ∧
    (∃ t, exec (.lw 5#5 6#5 0#32) s0 = .next t) ∧ (∃ t, exec .fenceI s0 = .next t) :=
  ⟨next_of (by decide), next_of (by decide), next_of (by decide), next_of (by decide), next_of (by decide),
    next_of (by decide)⟩

theorem witness_DestinationZeroSkipsOnlyTheWrite :
    ((Instr.add 0#5 6#5 7#5).dest = some 0#5 ∧ ∃ t, exec (.add 0#5 6#5 7#5) s0 = .next t) ∧
    ((Instr.add 0#5 6#5 7#5).loads = none ∧ (∀ imm, Instr.add 0#5 6#5 7#5 ≠ .jal 0#5 imm) ∧
      ∀ rs1 imm, Instr.add 0#5 6#5 7#5 ≠ .jalr 0#5 rs1 imm) ∧
    (0x10#32).toNat % 4 = 0 ∧ (2#32).toNat % 4 ≠ 0 ∧
    (((s0.reg 6#5 + 1#32) &&& ~~~1#32).toNat % 4 = 0 ∧ ((s0.reg 6#5 + 3#32) &&& ~~~1#32).toNat % 4 ≠ 0) ∧
    s0.mem.read (s0.reg 6#5 + 0#32) .word = .ok 0x8899AABB#32 ∧
    s0.mem.read (s0.reg 9#5 + 0#32) .word = .error (.unmappedRegion 0x2000#32) :=
  ⟨⟨by decide, next_of (by decide)⟩, ⟨by decide, by simp, by simp⟩, by decide, by decide, by decide, by decide,
    by decide⟩

/-- Two states that differ in a register the instruction does not read, and in the run-state. -/
theorem witness_SourcesDetermineEffect :
    let u : State := { s0.setReg 7#5 1#32 with run := .halted .ecall }
    (∀ r ∈ (Instr.lw 5#5 6#5 0#32).sources, u.reg r = s0.reg r) ∧ u.pc = s0.pc ∧ u.mem = s0.mem ∧
    u.params = s0.params ∧ u ≠ s0 := by decide

/-! ### Results -/

/-- Amounts 32, 33 and all ones; a decoded shamt of 31. -/
theorem witness_ShiftsMaskTheAmount :
    (s0.setReg 7#5 32#32).reg 7#5 = 32#32 ∧ (s0.setReg 7#5 33#32).reg 7#5 = 33#32 ∧
    decode 0x01F31293#32 = .ok (.slli 5#5 6#5 31#5) ∧ decode 0x00435293#32 = .ok (.srli 5#5 6#5 4#5) ∧
    decode 0x41F35293#32 = .ok (.srai 5#5 6#5 31#5) := by decide

theorem witness_JalLinksOrFaults : (0xFFFFFF00#32).toNat % 4 = 0 ∧ (0xFFFFE#32).toNat % 4 ≠ 0 := by decide

/-- The old base and, under jalr_link_first, the link; a target each way. -/
theorem witness_JalrLinksOrFaults :
    (0x800#32 = (if s0.params.jalrLinkFirst = true ∧ (6#5 : RegIdx) = 6#5 ∧ (6#5 : RegIdx) ≠ 0#5 then s0.pc + 4#32
      else s0.reg 6#5) ∧
      (0x800#32).toNat = (0x800#32 + 1#32).toNat / 2 * 2 ∧ (0x800#32).toNat % 4 = 0) ∧
    (0x104#32 = (if s1.params.jalrLinkFirst = true ∧ (6#5 : RegIdx) = 6#5 ∧ (6#5 : RegIdx) ≠ 0#5 then s1.pc + 4#32
      else s1.reg 6#5) ∧
      (0x106#32).toNat = (0x104#32 + 3#32).toNat / 2 * 2 ∧ (0x106#32).toNat % 4 ≠ 0) := by decide

/-- The list of branches, and a fetch at a pc that is 2 modulo 4. -/
theorem witness_BranchesNeverFault :
    Instr.bgeu 6#5 7#5 2#32 ∈ [Instr.beq 6#5 7#5 2#32, .bne 6#5 7#5 2#32, .blt 6#5 7#5 2#32, .bge 6#5 7#5 2#32,
      .bltu 6#5 7#5 2#32, .bgeu 6#5 7#5 2#32] ∧
    (0x1FFA#32).toNat + 4 ≤ 2 ^ 32 ∧
    ∀ k < 4, s0.mem.readByte (BitVec.ofNat 32 ((0x1FFA#32).toNat + k)) = .ok 0#8 := by decide

/-- Each width read, and each width missing. -/
theorem witness_LoadsReadExtendWrite :
    s0.mem.read (s0.reg 6#5 + 0#32) .byte = .ok 0xBB#32 ∧ s0.mem.read (s0.reg 6#5 + 1#32) .half = .ok 0x99AA#32 ∧
    s0.mem.read (s0.reg 6#5 + 1#32) .word = .ok 0x448899AA#32 ∧
    s0.mem.read (s0.reg 9#5 + 2#32) .byte = .error (.unmappedRegion 0x2000#32) ∧
    s0.mem.read (s0.reg 8#5 + 3#32) .half = .error (.unmappedRegion 0#32) ∧
    s0.mem.read (s0.reg 9#5 + 0#32) .word = .error (.unmappedRegion 0x2000#32) := by decide

/-- A word that ends at 2^32, and the word at 0x800. -/
theorem witness_LoadResults :
    ((s0.reg 8#5 + 0#32).toNat + 4 ≤ 2 ^ 32 ∧
      ∀ k < 4, s0.mem.readByte (BitVec.ofNat 32 ((s0.reg 8#5 + 0#32).toNat + k)) = .ok 0#8) ∧
    ((s0.reg 6#5 + 0#32).toNat + 4 ≤ 2 ^ 32 ∧
      ∀ k < 4, s0.mem.readByte (BitVec.ofNat 32 ((s0.reg 6#5 + 0#32).toNat + k)) =
        .ok ((0x8899AABB#32).extractLsb' (8 * k) 8)) := by decide

/-- All bytes mapped, and Discard with none of them mapped. -/
theorem witness_StoreResults :
    ((Width.word, Instr.sw 8#5 7#5 0#32) ∈ [(Width.byte, Instr.sb 8#5 7#5 0#32), (.half, .sh 8#5 7#5 0#32),
      (.word, .sw 8#5 7#5 0#32)]) ∧
    (∀ k < Width.word.bytes, s0.mem.HasByte ((s0.reg 8#5 + 0#32).toNat + k)) ∧
    s1.params.unmappedWrite = .discard ∧ ¬ s1.mem.HasByte (s1.reg 9#5 + 2#32).toNat := by decide

/-- The last byte of a word, of a halfword and of a byte missing. -/
theorem witness_StoreFaults :
    s0.params.unmappedWrite = .fault ∧ s0.mem.LowestMissing (s0.reg 8#5 + 1#32) Width.word.bytes 3 ∧
    s0.mem.LowestMissing (s0.reg 9#5 + 1#32) Width.half.bytes 1 ∧
    s0.mem.LowestMissing (s0.reg 9#5 + 2#32) Width.byte.bytes 0 := by decide

/-- At the pc itself and at an address that is 2 modulo 4. -/
theorem witness_StoredWordIsFetched :
    (∀ k < 4, s0.mem.HasByte ((s0.reg 6#5 + 0xFFFFF900#32).toNat + k)) ∧
    (∀ k < 4, s0.mem.HasByte ((s0.reg 6#5 + 2#32).toNat + k)) := by decide

/-! ### Halts, runs and launch -/

theorem witness_HaltsEndTheRun :
    (at100 0x00000073#32 []).fetch = .ok 0x00000073#32 ∧ (at100 0x00100073#32 []).fetch = .ok 0x00100073#32 ∧
    (at100 0x00000073#32 []).run = .running ∧
    (∃ t, step (at100 0x00000073#32 []) = .next t) ∧
    (at100 0x00000073#32 []).afterStep.run = .halted .ecall :=
  ⟨by decide, by decide, by decide, step_next_of (by decide), by decide⟩

/-- A run that ends after one step, one that ends at once, one that has not ended. -/
theorem witness_RunStopsAtFirstTerminal :
    ((at100 0x00000073#32 []).runToEnd 1).isSome = true ∧ (s0.halt .ebreak).runToEnd 0 = some (s0.halt .ebreak) ∧
    s0.runToEnd 1 = none := by decide

theorem witness_BoundedRunSteps :
    (∃ t, step s0 = .next t) ∧ step State.reset = .fault (.memory (.unmappedRegion 0#32)) :=
  ⟨step_next_of (by decide), step_fault_of (by decide)⟩

/-- Two touching segments and one that ends at 2^32, bytes at their ends, one of them written twice. -/
def launch2 : Launch :=
  { segments := [(0x1000#32, 0x1000), (0x0#32, 0x1000), (0xFFFFFFFF#32, 1)]
    bytes := [(0x0#32, 1#8), (0x1FFF#32, 2#8), (0xFFFFFFFF#32, 3#8), (0x0#32, 0#8)]
    regs := Vector.replicate 31 7#32
    pc0 := 0x1000#32 }

theorem witness_ValidLaunchAccepted :
    (∀ q ∈ launch2.segments, 1 ≤ q.2 ∧ q.1.toNat + q.2 ≤ 2 ^ 32) ∧
    launch2.segments.Pairwise (fun q r => ¬ (q.1.toNat < r.1.toNat + r.2 ∧ r.1.toNat < q.1.toNat + q.2)) ∧
    ∀ c ∈ launch2.bytes, ∃ q ∈ launch2.segments, q.1.toNat ≤ c.1.toNat ∧ c.1.toNat < q.1.toNat + q.2 :=
  ⟨by decide, by decide, by simp [launch2]⟩

theorem witness_LaunchStateIsBuilt : ∃ t, launch2.state ⟨.discard, true⟩ = .next t := launch_of (by decide)

theorem witness_StepsKeepMemoryCanonical :
    s0.Inv ∧ (∃ t, step s0 = .next t) ∧ (at100 0x00732023#32 [(6#5, 0x800#32), (7#5, 0#32)]).Inv ∧
    ∃ t, step (at100 0x00732023#32 [(6#5, 0x800#32), (7#5, 0#32)]) = .next t :=
  ⟨by decide, step_next_of (by decide), by decide, step_next_of (by decide)⟩

end Sys2Proof.Tests
end

/-! ## Proofs of the state family (10_state.md): what an instruction that goes on can have done -/

namespace Sys2Proof.Machine

open Sys2Proof

/-! ### What each shared operation leaves, read off the answer it gives -/

theorem State.retire_next {s t : State} {rd : RegIdx} {v : Word} (h : s.retire rd v = .next t) :
    s.WritesOnly t rd v := by
  obtain ⟨u, hu, hw, -⟩ := s.retire_spec rd v
  cases hu.symm.trans h
  exact hw

theorem State.jumpAndLink_next {s t : State} {rd : RegIdx} {target : Word}
    (h : s.jumpAndLink rd target = .next t) : s.WritesOnly t rd (s.pc + 4#32) := by
  obtain ⟨u, hu, hw, -⟩ := s.jumpAndLink_spec rd target
  cases hu.symm.trans h
  exact hw

theorem State.branch_next {s t : State} {taken : Bool} {imm : Word} (h : s.branch taken imm = .next t) :
    s.PcOnly t := by
  obtain ⟨u, hu, hp, -⟩ := s.branch_spec taken imm
  cases hu.symm.trans h
  exact hp

theorem State.onlyAdvance_next {s t : State} (h : s.onlyAdvance = .next t) : s.PcOnly t := by
  obtain ⟨u, hu, hp, -⟩ := s.onlyAdvance_spec
  cases hu.symm.trans h
  exact hp

theorem State.haltWith_next {s t : State} {r : HaltReason} (h : s.haltWith r = .next t) :
    t = s.incrementPc.halt r := by
  cases h
  rfl

/-- A load that goes on has only written its destination: a fault is no next state. -/
theorem State.load_next {s t : State} {w : Width} {e : Extension} {rd rs1 : RegIdx} {imm : Word}
    (h : s.load w e rd rs1 imm = .next t) : ∃ v, s.WritesOnly t rd v := by
  rcases s.load_cases w e rd rs1 imm with ⟨-, hl⟩ | ⟨k, -, -, -, hl⟩ <;> rw [hl] at h
  · exact ⟨_, State.retire_next h⟩
  · cases h

/-- A store that goes on has poked its bytes and moved the pc, under either parameter value. -/
theorem State.store_next {s t : State} {w : Width} {rs1 rs2 : RegIdx} {imm : Word}
    (h : s.store w rs1 rs2 imm = .next t) :
    t = ({ s with mem := s.mem.pokeBytes (s.effAddr rs1 imm).toNat w (s.reg rs2) } : State).incrementPc := by
  rcases s.store_cases w rs1 rs2 imm with ⟨-, hs⟩ | ⟨-, k, -, -, -, hs⟩ <;> rw [hs] at h
  · exact (Host.Outcome.next.inj h).symm
  · cases h

theorem execJal_next {rd : RegIdx} {imm : Word} {s t : State} (h : execJal rd imm s = .next t) :
    s.WritesOnly t rd (s.pc + 4#32) := by
  unfold execJal at h
  split at h
  · cases h
  · exact State.jumpAndLink_next h

theorem execJalr_next {rd rs1 : RegIdx} {imm : Word} {s t : State} (h : execJalr rd rs1 imm s = .next t) :
    s.WritesOnly t rd (s.pc + 4#32) := by
  unfold execJalr at h
  split at h
  · cases h
  · exact State.jumpAndLink_next h

/-! ### The inversion lemma of the execute stage -/

/-- Everything an instruction that goes on can have done: written its destination, moved the pc alone, stored, or
halted. Unlike `exec_shape` it speaks of the state reached, and names the two instructions that halt. -/
theorem exec_next_cases {i : Instr} {s t : State} (h : exec i s = .next t) :
    (∃ rd v, i.dest = some rd ∧ s.WritesOnly t rd v) ∨
    s.PcOnly t ∨
    (∃ w rs1 rs2 imm, i.stores = some (w, rs1, imm) ∧
      t = ({ s with mem := s.mem.pokeBytes (s.effAddr rs1 imm).toNat w (s.reg rs2) } : State).incrementPc) ∨
    ((i = .ecall ∨ i = .ebreak) ∧ ∃ r, t = s.incrementPc.halt r) := by
  cases i with
  | lui | auipc | addi | slti | sltiu | xori | ori | andi | slli | srli | srai | add | sub | sll | slt | sltu | xor
  | srl | sra | or | and => exact .inl ⟨_, _, rfl, State.retire_next h⟩
  | jal => exact .inl ⟨_, _, rfl, execJal_next h⟩
  | jalr => exact .inl ⟨_, _, rfl, execJalr_next h⟩
  | lb | lh | lw | lbu | lhu =>
    obtain ⟨v, hv⟩ := State.load_next h
    exact .inl ⟨_, v, rfl, hv⟩
  | beq | bne | blt | bge | bltu | bgeu => exact .inr (.inl (State.branch_next h))
  | fence | fenceI | csrrw | csrrs | csrrc | csrrwi | csrrsi | csrrci =>
    exact .inr (.inl (State.onlyAdvance_next h))
  | sb | sh | sw => exact .inr (.inr (.inl ⟨_, _, _, _, rfl, State.store_next h⟩))
  | ecall => exact .inr (.inr (.inr ⟨.inl rfl, _, State.haltWith_next h⟩))
  | ebreak => exact .inr (.inr (.inr ⟨.inr rfl, _, State.haltWith_next h⟩))

/-! ### The canonical form along a run -/

/-- Only a store touches memory, and poking bytes keeps the canonical form. -/
theorem exec_keeps_inv {i : Instr} {s t : State} (hs : s.Inv) (h : exec i s = .next t) : t.Inv := by
  rcases exec_next_cases h with ⟨rd, v, -, -, -, hmem, -⟩ | ⟨-, hmem, -⟩ | ⟨w, rs1, rs2, imm, -, rfl⟩ | ⟨-, r, rfl⟩
  · rwa [State.Inv, hmem]
  · rwa [State.Inv, hmem]
  · exact Memory.wf_pokeBytes hs _ _ _
  · exact hs

theorem step_keeps_inv {s t : State} (hs : s.Inv) (h : step s = .next t) : t.Inv := by
  obtain ⟨w, i, -, -, he⟩ := step_next h
  exact exec_keeps_inv (s := s.beginStep) hs he

/-- A recorded fault leaves memory as it is (R160), so the run entry points keep the form too. -/
theorem State.afterStep_keeps_inv {s : State} (hs : s.Inv) : s.afterStep.Inv := by
  cases h : step s with
  | next t => exact State.afterStep_of_next h ▸ step_keeps_inv hs h
  | fault e => exact State.afterStep_of_fault h ▸ hs
  | refused r => simpa [State.afterStep, h] using hs

theorem State.afterSteps_keeps_inv {s : State} (hs : s.Inv) (n : Nat) : (s.afterSteps n).Inv := by
  induction n generalizing s with
  | zero => exact hs
  | succ n ih => exact ih (State.afterStep_keeps_inv hs)

/-- Settles O55: one step by the inversion of `exec`, any number of steps by induction. -/
theorem stepsKeepMemoryCanonical : Obligations.StepsKeepMemoryCanonical :=
  fun _ hs => ⟨fun _ => step_keeps_inv hs, State.afterSteps_keeps_inv hs⟩

/-! ### The frame of an instruction -/

/-- Settles O31, one case for each thing an instruction can have done. -/
theorem instructionFrame : Obligations.InstructionFrame := by
  intro i s t h
  rcases exec_next_cases h with
    ⟨rd, v, hd, -, hreg, hmem, hrun, hpar, hst⟩ | ⟨hreg, hmem, hrun, hpar, hst⟩ | ⟨w, rs1, rs2, imm, hi, rfl⟩ |
    ⟨hi, r, rfl⟩
  · have hother : ∀ r, i.dest ≠ some r → t.reg r = s.reg r :=
      fun r hr => hreg r fun e => hr (e ▸ hd)
    exact ⟨hother, fun _ => hmem, fun _ _ _ _ b _ => by rw [hmem], hpar, hst, fun _ _ => hrun⟩
  · exact ⟨fun r _ => hreg r, fun _ => hmem, fun _ _ _ _ b _ => by rw [hmem], hpar, hst, fun _ _ => hrun⟩
  · refine ⟨fun _ _ => rfl, fun hn => ?_, fun w' rs1' imm' hi' b hb => ?_, rfl, rfl, fun _ _ => rfl⟩
    · rw [hi] at hn
      cases hn
    · cases hi.symm.trans hi'
      exact Memory.readByte_pokeBytes_outside _ _ _ _ hb
  · refine ⟨fun _ _ => rfl, fun _ => rfl, fun _ _ _ _ _ _ => rfl, rfl, rfl, fun hne hnb => ?_⟩
    exact (hi.elim hne hnb).elim

/-! ### Register ports and program counter -/

/-- Settles O12: the read port's two cases (R21). -/
theorem readPort : Obligations.ReadPort := by
  refine ⟨State.reg_zero, fun s i hi => ?_, fun s v => State.reg_zero _⟩
  rw [State.reg_of_ne s hi, Vector.getElem?_eq_getElem]

/-- Settles O13: reading after writing the same and another register (R22). -/
theorem writePort : Obligations.WritePort := by
  refine ⟨State.setReg_zero, fun s i v hi => ⟨?_, fun j hj => s.reg_setReg_other v hj, s.setReg_pc i v, ?_⟩⟩
  · rw [State.reg_setReg_same, if_neg hi]
  · exact ⟨s.setReg_mem i v, s.setReg_run i v, s.setReg_params i v, s.setReg_started i v⟩

/-- A word moved by a signed displacement, as integers: the sum modulo 2^32. -/
theorem toNat_add_ofInt (a : Word) (d : Int) :
    ((a + BitVec.ofInt 32 d).toNat : Int) = (a.toNat + d) % 2 ^ 32 := by
  rw [BitVec.toNat_add, BitVec.toNat_ofInt]
  omega

/-- Settles O14: the pc's arithmetic is that of 32-bit words (R31). -/
theorem pcWraps : Obligations.PcWraps := by
  refine ⟨fun s => BitVec.toNat_add s.pc 4#32, fun s hs => ?_, fun s hs => ?_, fun s d => toNat_add_ofInt s.pc d,
    State.setPc_pc, fun s v i => ⟨s.incrementPc_reg i, s.addToPc_reg v i, s.setPc_reg v i⟩⟩
  · rw [State.incrementPc_pc, hs]
    decide
  · rw [State.incrementPc_pc, hs]
    decide

/-! ### Reset -/

/-- Settles O56, by the law of the model that says it. -/
theorem resetMemoryCanonical : Obligations.ResetMemoryCanonical := State.reset_mem_wf

theorem State.reset_reg (i : RegIdx) : State.reset.reg i = 0#32 := by
  by_cases hi : i = 0#5
  · rw [hi, State.reg_zero]
  · rw [State.reg_of_ne _ hi]
    exact Vector.getElem_replicate _

/-- No segment is declared at reset (R341), so no byte exists. -/
theorem State.reset_no_byte (x : Nat) : ¬ State.reset.mem.HasByte x := by
  rintro ⟨-, g, hg, -⟩
  exact List.not_mem_nil hg

/-- Settles O57: the registers and the missing bytes by their lemmas, the other fields as `State.new` lists them. -/
theorem resetValues : Obligations.ResetValues :=
  ⟨State.reset_reg, rfl, rfl, State.reset_no_byte, rfl, rfl⟩

end Sys2Proof.Machine

/-! ## Proofs of the memory family (20_memory.md): what single bytes and whole accesses read and leave -/

namespace Sys2Proof.Machine

open Sys2Proof

/-! ### Single bytes -/

theorem Memory.mapped_lt {m : Memory} {x : Nat} (h : m.mapped x = true) : x < 2 ^ 32 :=
  ((m.mapped_iff x).1 h).1

/-- No byte exists past 0xFFFFFFFF (R58). -/
theorem Memory.unmapped_of_le {m : Memory} {x : Nat} (h : 2 ^ 32 ≤ x) : m.mapped x = false :=
  (m.unmapped_iff x).2 fun hx => Nat.not_lt.2 h hx.1

/-- Reading the byte at an integer address below 2^32. -/
theorem Memory.readByte_ofNat_ok {m : Memory} {x : Nat} {b : Byte} (h : x < 2 ^ 32) :
    m.readByte (BitVec.ofNat 32 x) = .ok b ↔ m.mapped x = true ∧ m.peek x = b := by
  rw [Memory.readByte_ok, BitVec.toNat_ofNat, Nat.mod_eq_of_lt h]

theorem Memory.readByte_unmapped {m : Memory} {a : Word} (h : m.mapped a.toNat = false) :
    m.readByte a = .error (.unmappedRegion a) := by
  simp [Memory.readByte, h]

theorem Memory.readByte_congr {m n : Memory} {a : Word} (hm : n.mapped a.toNat = m.mapped a.toNat)
    (hp : n.peek a.toNat = m.peek a.toNat) : n.readByte a = m.readByte a := by
  simp only [Memory.readByte, hm, hp]

/-- A written byte that is mapped reads back as its part of the value (R60, R61). -/
theorem Memory.readByte_pokeBytes_inside {m : Memory} {a k : Nat} {w : Width} (v : Word) (hk : k < w.bytes)
    (h : m.mapped (a + k) = true) :
    (m.pokeBytes a w v).readByte (BitVec.ofNat 32 (a + k)) = .ok (byteOfWord v k) := by
  rw [Memory.readByte_ofNat_ok (Memory.mapped_lt h), Memory.pokeBytes_mapped]
  exact ⟨h, Memory.peek_pokeBytes_inside m a w v hk h⟩

/-! ### What MemWrite answers, case by case -/

theorem Memory.write_of_mapped {m : Memory} (mode : UnmappedWrite) {a : Word} {w : Width} (v : Word)
    (h : ∀ k < w.bytes, m.mapped (a.toNat + k) = true) : m.write mode a w v = .ok (m.pokeBytes a.toNat w v) := by
  rcases m.write_cases mode a w v with ⟨-, e⟩ | ⟨-, k, hk, hu, -⟩
  · exact e
  · rw [h k hk] at hu
    cases hu

theorem Memory.write_discard (m : Memory) (a : Word) (w : Width) (v : Word) :
    m.write .discard a w v = .ok (m.pokeBytes a.toNat w v) := rfl

theorem Memory.write_fault_error {m : Memory} {a : Word} {w : Width} {k : Nat} (v : Word) (hk : k < w.bytes)
    (hu : m.mapped (a.toNat + k) = false) (hl : ∀ j < k, m.mapped (a.toNat + j) = true) :
    m.write .fault a w v = .error (unmappedAt (a.toNat + k)) := by
  simp [Memory.write, Memory.firstUnmapped_some.2 ⟨k, hk, rfl, hu, hl⟩]

/-! ### Words and their bytes -/

theorem Width.bytes_pos (w : Width) : 0 < w.bytes := by cases w <;> decide

/-- A word is determined by its four bytes. -/
theorem eq_of_byteOfWord {v w : Word} (h : ∀ k < 4, byteOfWord v k = byteOfWord w k) : v = w := by
  refine BitVec.eq_of_getLsbD_eq fun i hi => ?_
  have hb := congrArg (·.getLsbD (i % 8)) (h (i / 8) (by omega))
  simpa [byteOfWord, BitVec.getLsbD_extractLsb', Nat.mod_lt, Nat.div_add_mod] using hb

/-- The bytes of what MemRead composes: those read, and 0x00 above (R59). Bit `i` of byte `k` is bit `8 * k + i`, whose
range tells which of the appended bytes it lies in. -/
theorem byteOfWord_peekBytes (m : Memory) (a : Nat) (w : Width) {k : Nat} (hk : k < 4) :
    byteOfWord (m.peekBytes a w) k = if k < w.bytes then m.peek (a + k) else 0#8 := by
  refine BitVec.eq_of_getLsbD_eq fun i hi => ?_
  rw [byteOfWord, BitVec.getLsbD_extractLsb']
  cases w with
  | byte =>
    simp only [Memory.peekBytes, Width.bytes, BitVec.getLsbD_setWidth]
    grind
  | half =>
    simp only [Memory.peekBytes, Width.bytes, BitVec.getLsbD_setWidth, BitVec.getLsbD_append]
    grind
  | word =>
    simp only [Memory.peekBytes, Width.bytes, BitVec.getLsbD_append]
    grind

/-- The bytes of a part of a word, zero-extended. -/
theorem byteOfWord_extract (v : Word) (off n : Nat) {k : Nat} (hk : k < 4) :
    byteOfWord ((v.extractLsb' (8 * off) (8 * n)).setWidth 32) k = if k < n then byteOfWord v (off + k) else 0#8 := by
  refine BitVec.eq_of_getLsbD_eq fun i hi => ?_
  have hlt : 8 * k + i < 32 := by omega
  have hin : 8 * k + i < 8 * n ↔ k < n := by omega
  have hpos : 8 * off + (8 * k + i) = 8 * (off + k) + i := by omega
  by_cases h : k < n <;> simp [byteOfWord, BitVec.getLsbD_extractLsb', h, hi, hin, hlt, hpos]

/-- The value MemRead answers is known from its bytes. -/
theorem Memory.read_eq_of_bytes {m : Memory} {a v : Word} {w : Width}
    (hm : ∀ k < w.bytes, m.mapped (a.toNat + k) = true)
    (hv : ∀ k < 4, byteOfWord v k = if k < w.bytes then m.peek (a.toNat + k) else 0#8) : m.read a w = .ok v := by
  rw [Memory.read_ok hm, eq_of_byteOfWord fun k hk => (byteOfWord_peekBytes m a.toNat w hk).trans (hv k hk).symm]

/-- Any access inside a written word reads its part of the value, zero-extended (R62, R63). -/
theorem Memory.read_pokeBytes_part {m : Memory} {a : Word} {w : Width} {off : Nat} (v : Word)
    (hm : ∀ k < 4, m.mapped (a.toNat + k) = true) (hoff : off + w.bytes ≤ 4) :
    (m.pokeBytes a.toNat .word v).read (a + BitVec.ofNat 32 off) w =
      .ok ((v.extractLsb' (8 * off) (8 * w.bytes)).setWidth 32) := by
  have hlt := Memory.mapped_lt (hm 3 (by omega))
  have hpos := w.bytes_pos
  have haddr : (a + BitVec.ofNat 32 off).toNat = a.toNat + off := by
    rw [BitVec.toNat_add, BitVec.toNat_ofNat]
    omega
  refine Memory.read_eq_of_bytes (fun k hk => ?_) fun k hk => ?_
  · rw [Memory.pokeBytes_mapped, haddr, Nat.add_assoc]
    exact hm _ (by omega)
  · rw [byteOfWord_extract v off w.bytes hk, haddr, Nat.add_assoc]
    split
    · next h =>
      have hin : off + k < Width.word.bytes := Nat.lt_of_lt_of_le (Nat.add_lt_add_left h off) hoff
      exact (Memory.peek_pokeBytes_inside m a.toNat .word v hin (hm _ hin)).symm
    · rfl

/-- A written word reads back whole (R63). -/
theorem Memory.read_pokeBytes_word {m : Memory} {a : Word} (v : Word)
    (hm : ∀ k < 4, m.mapped (a.toNat + k) = true) : (m.pokeBytes a.toNat .word v).read a .word = .ok v := by
  have h := Memory.read_pokeBytes_part (w := .word) (off := 0) v hm (by decide)
  simpa [Width.bytes] using h

/-! ### Segments -/

/-- Two segments of a canonical map that cover one address are the same: of two different ones, one ends before the
other begins (R34, R55). -/
theorem Memory.owner_unique {m : Memory} (hm : m.wf) {g h : Segment} (hg : g ∈ m.segs) (hh : h ∈ m.segs) {x : Nat}
    (hgx : g.base.toNat ≤ x ∧ x < g.base.toNat + g.size) (hhx : h.base.toNat ≤ x ∧ x < h.base.toNat + h.size) :
    g = h := by
  have hsep := List.pairwise_iff_getElem.1 hm.1
  obtain ⟨i, hi, rfl⟩ := List.getElem_of_mem hg
  obtain ⟨j, hj, rfl⟩ := List.getElem_of_mem hh
  rcases Nat.lt_trichotomy i j with hij | rfl | hij
  · have := hsep i j hi hj hij
    omega
  · rfl
  · have := hsep j i hj hi hij
    omega

/-- Settles O15: `mapped` is existence, and a word is always below 2^32 (R55). -/
theorem mappedByOneSegment : Obligations.MappedByOneSegment := by
  intro m hm a
  refine ⟨?_, fun g hg h hh => Memory.owner_unique hm hg hh⟩
  rw [Memory.mapped_iff]
  exact and_iff_right a.isLt

/-! ### MemRead and MemWrite -/

/-- Settles O16: the bytes of the composed value, and the answer at the lowest missing byte (R59). -/
theorem readComposesBytes : Obligations.ReadComposesBytes := by
  refine fun m a w => ⟨fun b ha hb => ?_, fun k hk => ?_⟩
  · have hbyte : ∀ k < w.bytes, m.mapped (a.toNat + k) = true ∧ m.peek (a.toNat + k) = b k :=
      fun k hk => (Memory.readByte_ofNat_ok (by omega)).1 (hb k hk)
    refine ⟨_, Memory.read_ok fun k hk => (hbyte k hk).1, fun k hk => ?_⟩
    refine (byteOfWord_peekBytes m a.toNat w hk).trans ?_
    split
    · next h => exact (hbyte k h).2
    · rfl
  · obtain ⟨hlt, hu, hl⟩ := (m.lowestMissing_iff a w.bytes k).1 hk
    exact Memory.read_error hlt hu hl

/-- Settles O17: the byte at 2^32 does not exist, so some byte of the access is missing (R58). -/
theorem noWrapPastTop : Obligations.NoWrapPastTop := by
  intro m a w v hpast
  obtain ⟨k, hk⟩ := Nat.exists_eq_add_of_le a.isLt.le
  have hin : k < w.bytes := by omega
  have htop : m.mapped (a.toNat + k) = false := Memory.unmapped_of_le hk.le
  refine ⟨?_, fun hl => ?_, _, m.write_discard a w v, fun b hb => m.readByte_pokeBytes_outside _ _ _ (.inl hb)⟩
  · rcases m.read_cases a w with ⟨hm, -⟩ | ⟨j, hj, hu, hl, e⟩
    · rw [hm k hin] at htop
      cases htop
    · exact ⟨_, e, Memory.write_fault_error v hj hu hl⟩
  · have hlow : ∀ j < k, m.mapped (a.toNat + j) = true := fun j hj => (m.mapped_iff _).2 (hl j (by omega))
    rw [Memory.read_error hin htop hlow, ← hk]
    rfl

/-- Settles O18: with all bytes mapped the written ones are poked, else the lowest missing one faults (R60). -/
theorem faultingWriteIsAllOrNothing : Obligations.FaultingWriteIsAllOrNothing := by
  refine fun m a w v => ⟨fun hb => ?_, fun k hk => ?_⟩
  · have hm : ∀ k < w.bytes, m.mapped (a.toNat + k) = true := fun k hk => (m.mapped_iff _).2 (hb k hk)
    exact ⟨_, Memory.write_of_mapped .fault v hm, m.pokeBytes_segs _ _ _,
      fun k hk => Memory.readByte_pokeBytes_inside v hk (hm k hk),
      fun b hb => m.readByte_pokeBytes_outside _ _ _ hb⟩
  · obtain ⟨hlt, hu, hl⟩ := (m.lowestMissing_iff a w.bytes k).1 hk
    exact Memory.write_fault_error v hlt hu hl

/-- Settles O19: a discarding write pokes its bytes, which maps and unmaps none (R61). -/
theorem discardingWriteKeepsMapped : Obligations.DiscardingWriteKeepsMapped := by
  intro m a w v
  refine ⟨_, m.write_discard a w v, m.pokeBytes_segs _ _ _,
    fun k hk hb => Memory.readByte_pokeBytes_inside v hk ((m.mapped_iff _).2 hb), fun b hb => ?_,
    fun b hb => m.readByte_pokeBytes_outside _ _ _ hb⟩
  exact Memory.readByte_unmapped ((m.pokeBytes_mapped ..).trans ((m.unmapped_iff _).2 hb))

/-- Settles O20: the narrower accesses read parts of the written word (R62, R63). -/
theorem wordRoundTrip : Obligations.WordRoundTrip := by
  intro m mode a v hb
  have hm : ∀ k < 4, m.mapped (a.toNat + k) = true := fun k hk => (m.mapped_iff _).2 (hb k hk)
  refine ⟨_, Memory.write_of_mapped mode v hm, Memory.read_pokeBytes_word v hm,
    fun k hk => Memory.readByte_pokeBytes_inside (w := .word) v hk (hm k hk), ?_⟩
  rintro rfl
  have hbyte := Memory.read_pokeBytes_part (w := .byte) (off := 0) 0x11223344#32 hm (by decide)
  rw [BitVec.add_zero] at hbyte
  exact ⟨hbyte, Memory.read_pokeBytes_part (w := .half) (off := 1) 0x11223344#32 hm (by decide),
    Memory.read_pokeBytes_part (w := .half) (off := 2) 0x11223344#32 hm (by decide)⟩

/-! ### The segments along a run -/

theorem exec_segs {i : Instr} {s t : State} (h : exec i s = .next t) : t.mem.segs = s.mem.segs := by
  rcases exec_next_cases h with ⟨rd, v, -, -, -, hmem, -⟩ | ⟨-, hmem, -⟩ | ⟨w, rs1, rs2, imm, -, rfl⟩ | ⟨-, r, rfl⟩
  · rw [hmem]
  · rw [hmem]
  · exact Memory.pokeBytes_segs ..
  · rfl

theorem State.afterStep_segs (s : State) : s.afterStep.mem.segs = s.mem.segs := by
  cases h : step s with
  | next t =>
    obtain ⟨w, i, -, -, he⟩ := step_next h
    rw [State.afterStep_of_next h, exec_segs he, State.beginStep_mem]
  | fault e => rw [State.afterStep_of_fault h, State.takeFault_mem]
  | refused r => simp [State.afterStep, h]

theorem State.afterSteps_segs (s : State) (n : Nat) : (s.afterSteps n).mem.segs = s.mem.segs := by
  induction n generalizing s with
  | zero => rfl
  | succ n ih => rw [State.afterSteps_succ, ih, State.afterStep_segs]

/-- Settles O21: the addresses that exist are those of the segments, which no step touches (R54). -/
theorem segmentsNeverChange : Obligations.SegmentsNeverChange :=
  ⟨fun _ _ _ => exec_segs, State.afterSteps_segs, fun s n x => by rw [Memory.HasByte, s.afterSteps_segs n]⟩

/-! ### `add_segment` -/

theorem State.addSegment_started {s : State} (hs : s.started = true) (base : Word) (size : Nat) :
    s.addSegment base size = .refused .segmentAfterStart := by
  simp [State.addSegment, hs]

section
variable {s : State} {base : Word} {size : Nat} (hs : s.started = false)
include hs

theorem State.addSegment_invalid (h : size = 0 ∨ 2 ^ 32 < base.toNat + size) :
    s.addSegment base size = .refused .invalidSegment := by
  have hv : (Segment.mk base size).valid = false := by
    simp only [Segment.valid, decide_eq_false_iff_not]
    omega
  simp [State.addSegment, hs, hv]

variable (h1 : 1 ≤ size) (h2 : base.toNat + size ≤ 2 ^ 32)
include h1 h2

theorem State.addSegment_overlap (h : ∃ g ∈ s.mem.segs, g.intersects ⟨base, size⟩ = true) :
    s.addSegment base size = .fault (.memory .alreadyMappedRegion) := by
  have hv : (Segment.mk base size).valid = true := decide_eq_true ⟨h1, h2⟩
  simp only [State.addSegment, hs, hv, List.any_eq_true.2 h]
  rfl

theorem State.addSegment_accepted (h : ∀ g ∈ s.mem.segs, g.intersects ⟨base, size⟩ = false) :
    s.addSegment base size = .next { s with mem := s.mem.addRange ⟨base, size⟩ } := by
  have hv : (Segment.mk base size).valid = true := decide_eq_true ⟨h1, h2⟩
  have hd : s.mem.segs.any (fun g => g.intersects ⟨base, size⟩) = false :=
    List.any_eq_false.2 fun g hg => Bool.eq_false_iff.1 (h g hg)
  simp only [State.addSegment, hs, hv, hd]
  rfl

end

/-- A new segment's bytes are 0x00 (R51): none of its addresses was mapped, so none has a data byte. -/
theorem Memory.readByte_addRange_inside {m : Memory} {g : Segment} {a : Word} (hm : m.wf)
    (hd : ∀ h ∈ m.segs, h.intersects g = false) (ha : g.covers a.toNat = true) :
    (m.addRange g).readByte a = .ok 0#8 := by
  have hu : m.mapped a.toNat = false := by
    rw [Memory.unmapped_iff]
    rintro ⟨-, h, hh, hlo, hhi⟩
    have hdis := hd h hh
    simp only [Segment.intersects, Segment.covers, decide_eq_false_iff_not, decide_eq_true_eq] at hdis ha
    omega
  refine Memory.readByte_ok.2 ⟨?_, Memory.peek_unmapped hm hu⟩
  rw [Memory.mapped_addRange, ha, decide_eq_true a.isLt, Bool.and_true, Bool.or_true]

theorem Memory.readByte_addRange_outside (m : Memory) {g : Segment} {a : Word} (ha : g.covers a.toNat = false) :
    (m.addRange g).readByte a = m.readByte a :=
  Memory.readByte_congr (by rw [Memory.mapped_addRange, ha, Bool.and_false, Bool.or_false]) rfl

/-- Settles O22: each answer by its equation, the accepted segment's bytes by those of `addRange`. -/
theorem addSegmentAnswers : Obligations.AddSegmentAnswers := by
  intro s base size hinv
  refine ⟨fun hs => State.addSegment_started hs base size, State.addSegment_invalid, fun hs h1 h2 => ?_,
    fun hs h1 h2 hno => ?_⟩
  · rintro ⟨g, hg, hover⟩
    exact State.addSegment_overlap hs h1 h2 ⟨g, hg, decide_eq_true hover⟩
  · have hd : ∀ g ∈ s.mem.segs, g.intersects ⟨base, size⟩ = false :=
      fun g hg => decide_eq_false fun hover => hno ⟨g, hg, hover⟩
    have hnext := State.addSegment_accepted hs h1 h2 hd
    refine ⟨_, hnext, State.addSegment_wf hinv hnext, rfl, rfl, rfl, rfl, rfl, fun g => segInsert_mem,
      fun a hlo hhi => ?_, fun a hout => ?_⟩
    · exact Memory.readByte_addRange_inside hinv hd (decide_eq_true ⟨hlo, hhi⟩)
    · exact Memory.readByte_addRange_outside _ (decide_eq_false (by dsimp only; omega))

/-! ### Fetch after a store -/

theorem State.store_of_mapped {s : State} {w : Width} {rs1 : RegIdx} (rs2 : RegIdx) {imm : Word}
    (h : ∀ k < w.bytes, s.mem.mapped ((s.effAddr rs1 imm).toNat + k) = true) :
    s.store w rs1 rs2 imm =
      .next ({ s with mem := s.mem.pokeBytes (s.effAddr rs1 imm).toNat w (s.reg rs2) } : State).incrementPc := by
  rw [State.store, Memory.write_of_mapped _ _ h]

/-- Settles O47: a fetch is MemRead at the pc (R151), and the written word reads back whole (R73). -/
theorem storedWordIsFetched : Obligations.StoredWordIsFetched := by
  intro s rs1 rs2 imm hb
  have hm : ∀ k < 4, s.mem.mapped ((s.effAddr rs1 imm).toNat + k) = true :=
    fun k hk => (s.mem.mapped_iff _).2 (hb k hk)
  refine ⟨_, State.store_of_mapped (w := .word) rs2 hm, fun u hmem hpc => ?_⟩
  rw [State.fetch, hmem, hpc]
  exact Memory.read_pokeBytes_word (s.reg rs2) hm

end Sys2Proof.Machine

/-! ## Proofs of the encoding family (30_encoding.md): decoding by opcode group, and the two round trips -/

namespace Sys2Proof

/-! ### The opcode selects the group (R112, R115, R116) -/

/-- The eleven opcodes of the map (R112). -/
def recognizedOpcodes : List (BitVec 7) :=
  [0b0110111#7, 0b0010111#7, 0b1101111#7, 0b1100111#7, 0b1100011#7, 0b0000011#7, 0b0100011#7, 0b0010011#7, 0b0110011#7,
    0b0001111#7, 0b1110011#7]

section

variable {w : Word}

theorem decode_of_lui (h : opcodeOf w = 0b0110111#7) : decode w = .ok (.lui (rdOf w) (immUOf w)) := by
  simp only [decode, h]

theorem decode_of_auipc (h : opcodeOf w = 0b0010111#7) : decode w = .ok (.auipc (rdOf w) (immUOf w)) := by
  simp only [decode, h]

theorem decode_of_jal (h : opcodeOf w = 0b1101111#7) : decode w = .ok (.jal (rdOf w) (immJOf w)) := by
  simp only [decode, h]

theorem decode_of_jalr (h : opcodeOf w = 0b1100111#7) : decode w = decodeJalr w := by simp only [decode, h]

theorem decode_of_branch (h : opcodeOf w = 0b1100011#7) : decode w = decodeBranch w := by simp only [decode, h]

theorem decode_of_load (h : opcodeOf w = 0b0000011#7) : decode w = decodeLoad w := by simp only [decode, h]

theorem decode_of_store (h : opcodeOf w = 0b0100011#7) : decode w = decodeStore w := by simp only [decode, h]

theorem decode_of_opImm (h : opcodeOf w = 0b0010011#7) : decode w = decodeOpImm w := by simp only [decode, h]

theorem decode_of_op (h : opcodeOf w = 0b0110011#7) : decode w = decodeOp w := by simp only [decode, h]

theorem decode_of_miscMem (h : opcodeOf w = 0b0001111#7) : decode w = decodeMiscMem w := by simp only [decode, h]

theorem decode_of_system (h : opcodeOf w = 0b1110011#7) : decode w = decodeSystem w := by simp only [decode, h]

theorem decode_of_unrecognized (h : opcodeOf w ∉ recognizedOpcodes) :
    decode w = .error (.invalidInstruction w (opcodeOf w)) := by
  unfold decode
  split
  case h_12 => rfl
  all_goals next hop => exact absurd (hop ▸ by decide) h

end

/-! ### Decoding an encoded instruction -/

theorem opcodeOf_encode (i : Instr) : opcodeOf (encode i) = i.opcode := by
  cases i <;> simp [encode]

@[simp] theorem fenceCheck_encFence (pred succ : BitVec 4) (f3 : BitVec 3) (op : BitVec 7) :
    fenceCheck (encFence pred succ f3 op) = true := by
  simp [fenceCheck]

/-- Settles O3: the opcode of an encoded word selects the group, the function fields its tag, and every operand reads
back from its field, an immediate because it is in the range of R131. -/
theorem decodeOfEncode : Obligations.DecodeOfEncode := by
  intro i h
  have hop := opcodeOf_encode i
  cases i with
  | lui rd imm => rw [decode_of_lui hop]; simp [encode, immUOf_encU _ _ h]
  | auipc rd imm => rw [decode_of_auipc hop]; simp [encode, immUOf_encU _ _ h]
  | jal rd imm => rw [decode_of_jal hop]; simp [encode, immJOf_encJ _ _ h]
  | jalr rd rs1 imm => rw [decode_of_jalr hop]; simp [decodeJalr, encode, immIOf_encI _ _ _ _ h]
  | addi rd rs1 imm | slti rd rs1 imm | sltiu rd rs1 imm | xori rd rs1 imm | ori rd rs1 imm | andi rd rs1 imm =>
    rw [decode_of_opImm hop]; simp [decodeOpImm, encode, immIOf_encI _ _ _ _ h]
  | slli rd rs1 shamt | srli rd rs1 shamt | srai rd rs1 shamt =>
    rw [decode_of_opImm hop]; simp [decodeOpImm, encode]
  | add rd rs1 rs2 | sub rd rs1 rs2 | sll rd rs1 rs2 | slt rd rs1 rs2 | sltu rd rs1 rs2 | xor rd rs1 rs2
  | srl rd rs1 rs2 | sra rd rs1 rs2 | or rd rs1 rs2 | and rd rs1 rs2 =>
    rw [decode_of_op hop]; simp [decodeOp, encode]
  | beq rs1 rs2 imm | bne rs1 rs2 imm | blt rs1 rs2 imm | bge rs1 rs2 imm | bltu rs1 rs2 imm | bgeu rs1 rs2 imm =>
    rw [decode_of_branch hop]; simp [decodeBranch, encode, immBOf_encB _ _ _ _ h]
  | lb rd rs1 imm | lh rd rs1 imm | lw rd rs1 imm | lbu rd rs1 imm | lhu rd rs1 imm =>
    rw [decode_of_load hop]; simp [decodeLoad, encode, immIOf_encI _ _ _ _ h]
  | sb rs1 rs2 imm | sh rs1 rs2 imm | sw rs1 rs2 imm =>
    rw [decode_of_store hop]; simp [decodeStore, encode, immSOf_encS _ _ _ _ h]
  | fence pred succ => rw [decode_of_miscMem hop]; simp [decodeMiscMem, encode]
  | fenceI | ecall | ebreak => decide
  | csrrw rd rs1 csr | csrrs rd rs1 csr | csrrc rd rs1 csr | csrrwi rd rs1 csr | csrrsi rd rs1 csr
  | csrrci rd rs1 csr =>
    rw [decode_of_system hop]; simp [decodeSystem, encode]

/-! ### What each group answers -/

/-- Everything the decoder can answer for `w`: an instruction in the ranges of R131 that encodes to `w` (but for
FENCE.I, whose bits 27:20 are ignored, R124), or a fault of R126 with what raises it. -/
inductive DecodeAnswer (w : Word) : Except DecodeError Instr → Prop where
  | ok {i : Instr} (hwf : i.wellFormed = true) (henc : i ≠ .fenceI → encode i = w) : DecodeAnswer w (.ok i)
  | invalidInstruction (hop : opcodeOf w ∉ recognizedOpcodes) :
      DecodeAnswer w (.error (.invalidInstruction w (opcodeOf w)))
  | invalidFence (hop : opcodeOf w = 0b0001111#7) (hc : fenceCheck w = false) :
      DecodeAnswer w (.error (.invalidFence w (opcodeOf w)))
  | formatError {f : Fmt} (hf : NoMatchingFunct w f) : DecodeAnswer w (.error (.formatError f w (opcodeOf w)))

section

variable {w : Word} {op : BitVec 7} {f3 : BitVec 3}

/-! Every word is the encoding of its own fields, with the opcode and function fields given as values. -/

theorem encR_eq {f7 : BitVec 7} (hop : opcodeOf w = op) (hf3 : funct3Of w = f3) (hf7 : funct7Of w = f7) :
    encR f7 (rs2Of w) (rs1Of w) f3 (rdOf w) op = w := by
  subst hop hf3 hf7
  exact encR_fields w

theorem encI_eq (hop : opcodeOf w = op) (hf3 : funct3Of w = f3) :
    encI (imm12 (immIOf w)) (rs1Of w) f3 (rdOf w) op = w := by
  subst hop hf3
  exact encI_fields w

theorem encI_csr_eq (hop : opcodeOf w = op) (hf3 : funct3Of w = f3) :
    encI (csrOf w) (rs1Of w) f3 (rdOf w) op = w := by
  subst hop hf3
  exact encI_csr_fields w

theorem encS_eq (hop : opcodeOf w = op) (hf3 : funct3Of w = f3) :
    encS (immSOf w) (rs2Of w) (rs1Of w) f3 op = w := by
  subst hop hf3
  exact encS_fields w

theorem encB_eq (hop : opcodeOf w = op) (hf3 : funct3Of w = f3) :
    encB (immBOf w) (rs2Of w) (rs1Of w) f3 op = w := by
  subst hop hf3
  exact encB_fields w

theorem encU_eq (hop : opcodeOf w = op) : encU (immUOf w) (rdOf w) op = w := by
  subst hop
  exact encU_fields w

theorem encJ_eq (hop : opcodeOf w = op) : encJ (immJOf w) (rdOf w) op = w := by
  subst hop
  exact encJ_fields w

theorem encFence_eq (hop : opcodeOf w = op) (hf3 : funct3Of w = f3) (hc : fenceCheck w = true) :
    encFence (predOf w) (succOf w) f3 op = w := by
  subst hop hf3
  exact encFence_fields hc

/-! The clauses of `NoMatchingFunct`, one for each group that has function fields. -/

theorem noMatchingFunct_jalr (h : opcodeOf w = 0b1100111#7) (hf : funct3Of w ≠ 0b000#3) : NoMatchingFunct w .i :=
  .inl ⟨h, hf, rfl⟩

theorem noMatchingFunct_branch (h : opcodeOf w = 0b1100011#7) (hf : funct3Of w = 0b010#3 ∨ funct3Of w = 0b011#3) :
    NoMatchingFunct w .b :=
  .inr (.inl ⟨h, hf, rfl⟩)

theorem noMatchingFunct_load (h : opcodeOf w = 0b0000011#7)
    (hf : funct3Of w = 0b011#3 ∨ funct3Of w = 0b110#3 ∨ funct3Of w = 0b111#3) : NoMatchingFunct w .i :=
  .inr (.inr (.inl ⟨h, hf, rfl⟩))

theorem noMatchingFunct_store (h : opcodeOf w = 0b0100011#7) (hf : 3 ≤ (funct3Of w).toNat) : NoMatchingFunct w .s :=
  .inr (.inr (.inr (.inl ⟨h, hf, rfl⟩)))

theorem noMatchingFunct_slli (h : opcodeOf w = 0b0010011#7) (hf : funct3Of w = 0b001#3)
    (hf7 : funct7Of w ≠ 0b0000000#7) : NoMatchingFunct w .r :=
  .inr (.inr (.inr (.inr (.inl ⟨h, hf, hf7, rfl⟩))))

theorem noMatchingFunct_srli_srai (h : opcodeOf w = 0b0010011#7) (hf : funct3Of w = 0b101#3)
    (h0 : funct7Of w ≠ 0b0000000#7) (h32 : funct7Of w ≠ 0b0100000#7) : NoMatchingFunct w .r :=
  .inr (.inr (.inr (.inr (.inr (.inl ⟨h, hf, h0, h32, rfl⟩)))))

theorem noMatchingFunct_op (h : opcodeOf w = 0b0110011#7) (h0 : funct7Of w ≠ 0b0000000#7)
    (h32 : funct7Of w ≠ 0b0100000#7 ∨ (funct3Of w ≠ 0b000#3 ∧ funct3Of w ≠ 0b101#3)) : NoMatchingFunct w .r :=
  .inr (.inr (.inr (.inr (.inr (.inr (.inl ⟨h, h0, h32, rfl⟩))))))

theorem noMatchingFunct_miscMem (h : opcodeOf w = 0b0001111#7) (hf : 2 ≤ (funct3Of w).toNat) :
    NoMatchingFunct w .fence :=
  .inr (.inr (.inr (.inr (.inr (.inr (.inr (.inl ⟨h, hf, rfl⟩)))))))

theorem noMatchingFunct_system (h : opcodeOf w = 0b1110011#7)
    (hf : funct3Of w = 0b100#3 ∨ (funct3Of w = 0b000#3 ∧ w ≠ 0x00000073#32 ∧ w ≠ 0x00100073#32)) :
    NoMatchingFunct w .i :=
  .inr (.inr (.inr (.inr (.inr (.inr (.inr (.inr ⟨h, hf, rfl⟩)))))))

/-! One answer lemma for each group, along the branches of its definition. -/

theorem decodeJalr_answer (h : opcodeOf w = 0b1100111#7) : DecodeAnswer w (decodeJalr w) := by
  unfold decodeJalr
  split
  next hf => exact .ok (immIOk_immIOf w) fun _ => encI_eq h hf
  next hf => exact .formatError (noMatchingFunct_jalr h hf)

theorem decodeBranch_answer (h : opcodeOf w = 0b1100011#7) : DecodeAnswer w (decodeBranch w) := by
  unfold decodeBranch
  split
  case h_7 =>
    have hf : funct3Of w = 0b010#3 ∨ funct3Of w = 0b011#3 := by
      have := funct3_cases (funct3Of w)
      tauto
    exact .formatError (noMatchingFunct_branch h hf)
  all_goals next hf => exact .ok (immBOk_immBOf w) fun _ => encB_eq h hf

theorem decodeLoad_answer (h : opcodeOf w = 0b0000011#7) : DecodeAnswer w (decodeLoad w) := by
  unfold decodeLoad
  split
  case h_6 =>
    have hf : funct3Of w = 0b011#3 ∨ funct3Of w = 0b110#3 ∨ funct3Of w = 0b111#3 := by
      have := funct3_cases (funct3Of w)
      tauto
    exact .formatError (noMatchingFunct_load h hf)
  all_goals next hf => exact .ok (immIOk_immIOf w) fun _ => encI_eq h hf

theorem decodeStore_answer (h : opcodeOf w = 0b0100011#7) : DecodeAnswer w (decodeStore w) := by
  unfold decodeStore
  split
  case h_4 h0 h1 h2 =>
    change _ ≠ _ at h0 h1 h2
    exact .formatError (noMatchingFunct_store h (by bv_omega))
  all_goals next hf => exact .ok (immIOk_immSOf w) fun _ => encS_eq h hf

theorem decodeOpImm_answer (h : opcodeOf w = 0b0010011#7) : DecodeAnswer w (decodeOpImm w) := by
  unfold decodeOpImm
  split
  case h_7 hf =>
    split
    next hf7 => exact .ok rfl fun _ => encR_eq h hf hf7
    next hf7 => exact .formatError (noMatchingFunct_slli h hf hf7)
  case h_8 =>
    have hf : funct3Of w = 0b101#3 := by
      have := funct3_cases (funct3Of w)
      tauto
    split
    next hf7 => exact .ok rfl fun _ => encR_eq h hf hf7
    next hf7 => exact .ok rfl fun _ => encR_eq h hf hf7
    next h0 h32 => exact .formatError (noMatchingFunct_srli_srai h hf h0 h32)
  all_goals next hf => exact .ok (immIOk_immIOf w) fun _ => encI_eq h hf

theorem decodeOp_answer (h : opcodeOf w = 0b0110011#7) : DecodeAnswer w (decodeOp w) := by
  unfold decodeOp
  split
  case h_11 hadd hsub hsll hslt hsltu hxor hsrl hsra hor hand =>
    have h0 : funct7Of w ≠ 0b0000000#7 := by
      intro h0
      rcases funct3_cases (funct3Of w) with hf | hf | hf | hf | hf | hf | hf | hf
      exacts [hadd h0 hf, hsll h0 hf, hslt h0 hf, hsltu h0 hf, hxor h0 hf, hsrl h0 hf, hor h0 hf, hand h0 hf]
    have h32 : funct7Of w ≠ 0b0100000#7 ∨ (funct3Of w ≠ 0b000#3 ∧ funct3Of w ≠ 0b101#3) :=
      not_or_of_imp fun h32 => ⟨hsub h32, hsra h32⟩
    exact .formatError (noMatchingFunct_op h h0 h32)
  all_goals next hf7 hf3 => exact .ok rfl fun _ => encR_eq h hf3 hf7

theorem decodeMiscMem_answer (h : opcodeOf w = 0b0001111#7) : DecodeAnswer w (decodeMiscMem w) := by
  unfold decodeMiscMem
  split
  case isFalse hc => exact .invalidFence h (Bool.eq_false_iff.2 hc)
  case isTrue hc =>
    split
    next hf => exact .ok rfl fun _ => encFence_eq h hf hc
    next => exact .ok rfl fun hne => absurd rfl hne
    next h0 h1 =>
      change _ ≠ _ at h0 h1
      exact .formatError (noMatchingFunct_miscMem h (by bv_omega))

theorem decodeSystem_answer (h : opcodeOf w = 0b1110011#7) : DecodeAnswer w (decodeSystem w) := by
  unfold decodeSystem
  split
  case h_1 hf =>
    split_ifs with hcall hbreak
    · exact .ok rfl fun _ => hcall ▸ by decide
    · exact .ok rfl fun _ => hbreak ▸ by decide
    · exact .formatError (noMatchingFunct_system h (.inr ⟨hf, hcall, hbreak⟩))
  case h_8 =>
    have hf : funct3Of w = 0b100#3 := by
      have := funct3_cases (funct3Of w)
      tauto
    exact .formatError (noMatchingFunct_system h (.inl hf))
  all_goals next hf => exact .ok rfl fun _ => encI_csr_eq h hf

end

theorem decode_answer (w : Word) : DecodeAnswer w (decode w) := by
  by_cases h : opcodeOf w ∈ recognizedOpcodes
  · simp only [recognizedOpcodes, List.mem_cons, List.not_mem_nil, or_false] at h
    rcases h with h | h | h | h | h | h | h | h | h | h | h
    · exact decode_of_lui h ▸ .ok (immUOk_immUOf w) fun _ => encU_eq h
    · exact decode_of_auipc h ▸ .ok (immUOk_immUOf w) fun _ => encU_eq h
    · exact decode_of_jal h ▸ .ok (immJOk_immJOf w) fun _ => encJ_eq h
    · exact decode_of_jalr h ▸ decodeJalr_answer h
    · exact decode_of_branch h ▸ decodeBranch_answer h
    · exact decode_of_load h ▸ decodeLoad_answer h
    · exact decode_of_store h ▸ decodeStore_answer h
    · exact decode_of_opImm h ▸ decodeOpImm_answer h
    · exact decode_of_op h ▸ decodeOp_answer h
    · exact decode_of_miscMem h ▸ decodeMiscMem_answer h
    · exact decode_of_system h ▸ decodeSystem_answer h
  · exact decode_of_unrecognized h ▸ .invalidInstruction h

theorem decodeAnswer_of_eq {w : Word} {r : Except DecodeError Instr} (hd : decode w = r) : DecodeAnswer w r :=
  hd ▸ decode_answer w

/-- Settles O4: what `decode_answer` says of an instruction. -/
theorem encodeOfDecode : Obligations.EncodeOfDecode := by
  intro w i hd hne
  cases decodeAnswer_of_eq hd with
  | ok _ henc => exact henc hne

/-- Settles O5: what `decode_answer` says of an instruction. -/
theorem decodedIsWellFormed : Obligations.DecodedIsWellFormed := by
  intro w i hd
  cases decodeAnswer_of_eq hd with
  | ok hwf _ => exact hwf

/-- Settles O6: `decode_answer` raises InvalidInstruction for an unrecognized opcode alone. -/
theorem unrecognizedOpcode : Obligations.UnrecognizedOpcode := by
  intro w
  refine ⟨fun hd => ?_, fun h => decode_of_unrecognized h⟩
  cases decodeAnswer_of_eq hd with
  | invalidInstruction hop => exact hop

/-- Settles O7: the faults among the answers of `decode_answer`. -/
theorem decodeFaultCarriesWord : Obligations.DecodeFaultCarriesWord := by
  intro w d hd
  cases decodeAnswer_of_eq hd with
  | invalidInstruction _ => exact .inl rfl
  | invalidFence _ _ => exact .inr (.inl rfl)
  | formatError _ => exact .inr (.inr ⟨_, rfl⟩)

/-! ### The words that match no function fields, and the illegal space (R117-R125, R128) -/

section

variable {w : Word}

theorem decodeJalr_unmatched (hf : funct3Of w ≠ 0b000#3) : decodeJalr w = formatErr .i w := by
  unfold decodeJalr
  split
  next h0 => exact absurd h0 hf
  next => rfl

theorem decodeBranch_unmatched (hf : funct3Of w = 0b010#3 ∨ funct3Of w = 0b011#3) :
    decodeBranch w = formatErr .b w := by
  rcases hf with hf | hf <;> simp [decodeBranch, hf]

theorem decodeLoad_unmatched (hf : funct3Of w = 0b011#3 ∨ funct3Of w = 0b110#3 ∨ funct3Of w = 0b111#3) :
    decodeLoad w = formatErr .i w := by
  rcases hf with hf | hf | hf <;> simp [decodeLoad, hf]

theorem decodeStore_unmatched (hf : 3 ≤ (funct3Of w).toNat) : decodeStore w = formatErr .s w := by
  unfold decodeStore
  split
  case h_4 => rfl
  all_goals next h => simp [h] at hf

theorem decodeOpImm_unmatched_slli (hf : funct3Of w = 0b001#3) (h0 : funct7Of w ≠ 0b0000000#7) :
    decodeOpImm w = formatErr .r w := by
  simp [decodeOpImm, hf]

theorem decodeOpImm_unmatched_srli_srai (hf : funct3Of w = 0b101#3) (h0 : funct7Of w ≠ 0b0000000#7)
    (h32 : funct7Of w ≠ 0b0100000#7) : decodeOpImm w = formatErr .r w := by
  simp [decodeOpImm, hf]

theorem decodeOp_unmatched (h0 : funct7Of w ≠ 0b0000000#7)
    (h32 : funct7Of w ≠ 0b0100000#7 ∨ (funct3Of w ≠ 0b000#3 ∧ funct3Of w ≠ 0b101#3)) :
    decodeOp w = formatErr .r w := by
  unfold decodeOp
  split
  case h_11 => rfl
  case h_2 h hf | h_8 h hf => simp [h, hf] at h32
  all_goals next h _ => exact absurd h h0

theorem decodeMiscMem_checkFails (hc : fenceCheck w = false) :
    decodeMiscMem w = .error (.invalidFence w (opcodeOf w)) := by
  simp [decodeMiscMem, hc]

theorem fenceCheck_eq_false : fenceCheck w = false ↔ rdOf w ≠ 0#5 ∨ rs1Of w ≠ 0#5 ∨ fenceRsvdOf w ≠ 0#4 := by
  simp only [fenceCheck, decide_eq_false_iff_not, not_and_or]

theorem decodeMiscMem_checkHolds (hc : fenceCheck w = true) : decodeMiscMem w =
    if funct3Of w = 0b000#3 then .ok (.fence (predOf w) (succOf w)) else if funct3Of w = 0b001#3 then .ok .fenceI
    else formatErr .fence w := by
  simp only [decodeMiscMem, hc, if_true]
  split_ifs with h0 h1
  · simp only [h0]
  · simp only [h1]
  · simp

theorem decodeSystem_funct3_zero (hf : funct3Of w = 0b000#3) : decodeSystem w =
    if w = 0x00000073#32 then .ok .ecall else if w = 0x00100073#32 then .ok .ebreak else formatErr .i w := by
  simp only [decodeSystem, hf]

end

/-- Settles O10: the unmatched words of each group in turn. -/
theorem unmatchedFunctFaults : Obligations.UnmatchedFunctFaults := by
  intro w op f3 f7
  exact ⟨fun h hf => (decode_of_jalr h).trans (decodeJalr_unmatched hf),
    fun h hf => (decode_of_branch h).trans (decodeBranch_unmatched hf),
    fun h hf => (decode_of_load h).trans (decodeLoad_unmatched hf),
    fun h hf => (decode_of_store h).trans (decodeStore_unmatched hf),
    fun h hf h0 => (decode_of_opImm h).trans (decodeOpImm_unmatched_slli hf h0),
    fun h hf h0 h32 => (decode_of_opImm h).trans (decodeOpImm_unmatched_srli_srai hf h0 h32),
    fun h h0 h32 => (decode_of_op h).trans (decodeOp_unmatched h0 h32)⟩

/-- The opcodes of the absent extensions: custom-0 to custom-3, A, F, D and V (R128). -/
def absentOpcodes : List (BitVec 7) :=
  [0b0001011#7, 0b0101011#7, 0b1011011#7, 0b1111011#7, 0b0101111#7, 0b0000111#7, 0b0100111#7, 0b1010011#7, 0b1010111#7]

theorem absentOpcodes_unrecognized : ∀ op ∈ absentOpcodes, op ∉ recognizedOpcodes := by decide

/-- Every recognized opcode ends in 11, so the words of the compressed space have none of them. -/
theorem unrecognized_of_compressed {w : Word} (h : w.extractLsb' 0 2 ≠ 0b11#2) : opcodeOf w ∉ recognizedOpcodes := by
  intro hop
  have hlow : ∀ op ∈ recognizedOpcodes, op.extractLsb' 0 2 = 0b11#2 := by decide
  have hw : (opcodeOf w).extractLsb' 0 2 = w.extractLsb' 0 2 := by
    rw [opcodeOf, BitVec.extractLsb'_extractLsb'_of_le (by decide)]
  exact h (hw ▸ hlow _ hop)

/-- Settles O11: an unrecognized opcode, an unmatched OP word, a failing Fence check, or an unmatched SYSTEM word. -/
theorem illegalSpaceFaults : Obligations.IllegalSpaceFaults := by
  refine ⟨fun w h => decode_of_unrecognized (unrecognized_of_compressed h), decode_of_unrecognized (by decide),
    decode_of_unrecognized (by decide), fun w h => decode_of_unrecognized ?_, fun w h h1 => ?_, fun w h hfm => ?_,
    fun w h hf hcall hbreak => ?_⟩
  · exact absentOpcodes_unrecognized _ h
  · rw [← h]
    exact (decode_of_op h).trans
      (decodeOp_unmatched (ne_of_eq_of_ne h1 (by decide)) (.inl (ne_of_eq_of_ne h1 (by decide))))
  · rw [← h]
    exact (decode_of_miscMem h).trans
      (decodeMiscMem_checkFails (fenceCheck_eq_false.2 (.inr (.inr (ne_of_eq_of_ne hfm (by decide))))))
  · rw [← h, decode_of_system h, decodeSystem_funct3_zero hf, if_neg hcall, if_neg hbreak]
    rfl

/-- Settles O1: both words and their fields evaluate. -/
theorem workedDecodes : Obligations.WorkedDecodes := by
  unfold Obligations.WorkedDecodes
  decide

/-- Settles O8: the Fence check as its three fields, then the branches of the group. -/
theorem miscMemDecode : Obligations.MiscMemDecode := by
  intro w h
  rw [← h, decode_of_miscMem h]
  by_cases hc : fenceCheck w = false
  · exact (decodeMiscMem_checkFails hc).trans (if_pos (fenceCheck_eq_false.1 hc)).symm
  · exact (decodeMiscMem_checkHolds (eq_true_of_ne_false hc)).trans (if_neg (mt fenceCheck_eq_false.2 hc)).symm

/-- Settles O9: the branch of the group for each value of funct3. -/
theorem systemDecode : Obligations.SystemDecode := by
  intro w h
  rw [← h, decode_of_system h]
  refine ⟨decodeSystem_funct3_zero, ?_, ?_, ?_, ?_, ?_, ?_, ?_⟩
  all_goals
    intro hf
    rw [decodeSystem, show funct3Of w = _ from hf]
    rfl

end Sys2Proof

/-! ## Proofs of the execution-cycle family (40_execution_cycle.md): one step, its pc and sources, and runs of steps -/

namespace Sys2Proof.Machine

open Sys2Proof

/-! ### The three stages of a step -/

section
variable {s : State} {w : Word}

theorem step_of_fetch_error {e : MemoryError} (h : s.fetch = .error e) : step s = .fault (.memory e) := by
  simp only [step, h]

theorem step_of_decode_error {d : DecodeError} (hf : s.fetch = .ok w) (hd : decode w = .error d) :
    step s = .fault (.decode d) := by
  simp only [step, hf, hd]

theorem step_of_decode_ok {i : Instr} (hf : s.fetch = .ok w) (hd : decode w = .ok i) :
    step s = exec i s.beginStep := by
  simp only [step, hf, hd]

end

/-- A fetch with a byte missing names the lowest one (R151, R153). -/
theorem State.fetch_of_lowestMissing {s : State} {k : Nat} (h : s.mem.LowestMissing s.pc 4 k) :
    s.fetch = .error (unmappedAt (s.pc.toNat + k)) := by
  obtain ⟨hk, hu, hl⟩ := (s.mem.lowestMissing_iff s.pc 4 k).1 h
  exact Memory.read_error (w := .word) hk hu hl

/-- The byte `k` after `a`, where the addition does not pass 2^32. -/
theorem Memory.readByte_add_ok {m : Memory} {a : Word} {k : Nat} {b : Byte} (h : a.toNat + k < 2 ^ 32) :
    m.readByte (a + BitVec.ofNat 32 k) = .ok b ↔ m.mapped (a.toNat + k) = true ∧ m.peek (a.toNat + k) = b := by
  have haddr : (a + BitVec.ofNat 32 k).toNat = a.toNat + k := by
    rw [BitVec.toNat_add, BitVec.toNat_ofNat]
    omega
  rw [Memory.readByte_ok, haddr]

/-- MemRead of a word from its four bytes, the lowest address first (R59, R62). -/
theorem Memory.read_word_of_bytes {m : Memory} {a : Word} {b0 b1 b2 b3 : Byte} (ha : a.toNat + 4 ≤ 2 ^ 32)
    (h0 : m.readByte a = .ok b0) (h1 : m.readByte (a + 1#32) = .ok b1) (h2 : m.readByte (a + 2#32) = .ok b2)
    (h3 : m.readByte (a + 3#32) = .ok b3) : m.read a .word = .ok (b3 ++ b2 ++ b1 ++ b0) := by
  obtain ⟨m0, rfl⟩ := Memory.readByte_ok.1 h0
  obtain ⟨m1, rfl⟩ := (Memory.readByte_add_ok (by omega)).1 h1
  obtain ⟨m2, rfl⟩ := (Memory.readByte_add_ok (by omega)).1 h2
  obtain ⟨m3, rfl⟩ := (Memory.readByte_add_ok (by omega)).1 h3
  refine Memory.read_ok fun k (hk : k < 4) => ?_
  obtain rfl | rfl | rfl | rfl : k = 0 ∨ k = 1 ∨ k = 2 ∨ k = 3 := by omega
  exacts [m0, m1, m2, m3]

/-- Settles O24: the answer of each stage, the fetch from its missing byte or its four bytes (R150-R154, R305). -/
theorem stepRunsDecoded : Obligations.StepRunsDecoded := by
  refine fun s => ⟨fun k hk => step_of_fetch_error (State.fetch_of_lowestMissing hk), ?_⟩
  intro b0 b1 b2 b3 hpc h0 h1 h2 h3
  have hf : s.fetch = .ok (b3 ++ b2 ++ b1 ++ b0) := Memory.read_word_of_bytes hpc h0 h1 h2 h3
  exact ⟨fun d => step_of_decode_error hf, fun i => step_of_decode_ok hf⟩

/-- Settles O58: no byte exists at reset, so the lowest missing byte of the first fetch is the one at 0. -/
theorem resetFetchFaults : Obligations.ResetFetchFaults :=
  (stepRunsDecoded State.reset).1 0 ⟨by decide, State.reset_no_byte _, fun _ hj => absurd hj (Nat.not_lt_zero _)⟩

/-! ### Faults of a step -/

/-- Settles O30: neither the fetch nor `beginStep` sees the two fields (R165). -/
theorem stepIgnoresRunState : Obligations.StepIgnoresRunState := by
  intro s r b
  have hf : ({ s with run := r, started := b } : State).fetch = s.fetch := rfl
  have hb : ({ s with run := r, started := b } : State).beginStep = s.beginStep := rfl
  simp only [step, hf, hb]

/-- Settles O28: the run entry points record a fault by `takeFault` alone (R160). -/
theorem faultChangesNothing : Obligations.FaultChangesNothing := by
  intro s e h
  rw [State.afterStep_of_fault h]
  exact ⟨s.takeFault_regs e, s.takeFault_pc e, s.takeFault_mem e, s.takeFault_params e, s.takeFault_run e⟩

theorem State.afterSteps_of_afterStep_eq {s : State} (h : s.afterStep = s) (n : Nat) : s.afterSteps n = s := by
  induction n with
  | zero => rfl
  | succ n ih => rw [State.afterSteps_succ, h, ih]

/-- Settles O29: the recorded fault is in fields no step reads, so the step repeats, and recording it again changes
nothing (R163). -/
theorem faultRepeats : Obligations.FaultRepeats := by
  intro s e h
  have hagain : step s.afterStep = .fault e := by
    rw [State.afterStep_of_fault h]
    exact (stepIgnoresRunState s (.faulted e) true).trans h
  have hfixed : s.afterStep.afterStep = s.afterStep := by
    rw [State.afterStep_of_fault hagain, State.afterStep_of_fault h]
    rfl
  exact ⟨hagain, State.afterSteps_of_afterStep_eq hfixed⟩

/-- Everything an instruction can answer: a next state, or one of the two kinds of execute fault the spec gives
(R155, R303). -/
theorem exec_answers (i : Instr) (s : State) :
    (∃ t, exec i s = .next t) ∨ (∃ x, exec i s = raise (.misalignedAddress x)) ∨
    (∃ e, exec i s = raise (.memory e)) := by
  rcases exec_shape i s with ⟨rd, v, -, h⟩ | ⟨rd, v, -, h⟩ | ⟨x, h⟩ | ⟨c, imm, -, h⟩ | ⟨w, e, rd, rs1, imm, -, -, h⟩ |
    ⟨w, rs1, rs2, imm, -, -, h⟩ | ⟨-, h⟩ | ⟨r, -, h⟩
  · exact .inl ⟨_, h⟩
  · exact .inl ⟨_, h⟩
  · exact .inr (.inl ⟨x, h⟩)
  · exact .inl ⟨_, h⟩
  · rcases s.load_cases w e rd rs1 imm with ⟨-, hl⟩ | ⟨k, -, -, -, hl⟩
    · exact .inl ⟨_, h.trans hl⟩
    · exact .inr (.inr ⟨_, h.trans hl⟩)
  · rcases s.store_cases w rs1 rs2 imm with ⟨-, hs⟩ | ⟨-, k, -, -, -, hs⟩
    · exact .inl ⟨_, h.trans hs⟩
    · exact .inr (.inr ⟨_, h.trans hs⟩)
  · exact .inl ⟨_, h⟩
  · exact .inl ⟨_, h⟩

/-- Settles O26: a step answers a fetch or decode fault or what its instruction answers, none of them a refusal or the
dispatch fault (R155). -/
theorem stepIsNeverRefused : Obligations.StepIsNeverRefused := by
  intro s
  rcases step_cases s with ⟨e, -, h⟩ | ⟨w, d, -, -, h⟩ | ⟨w, i, -, -, h⟩
  · rw [h]
    exact ⟨nofun, nofun⟩
  · rw [h]
    exact ⟨nofun, nofun⟩
  · rcases exec_answers i s.beginStep with ⟨t, hx⟩ | ⟨x, hx⟩ | ⟨e, hx⟩ <;> rw [h, hx] <;>
      exact ⟨nofun, nofun⟩

/-! ### Placing a word -/

theorem tableWord_toNat (w : Word) : tableWord 32 w.toNat = w := by
  rw [tableWord, Nat.mod_eq_of_lt w.isLt, BitVec.ofNat_toNat, BitVec.setWidth_eq]

/-- The memory in which `State.placeWord` stores its word: the four bytes from `a` on made mapped. -/
def Memory.ensureWord (m : Memory) (a : Nat) : Memory :=
  (((m.ensureMapped a).ensureMapped (a + 1)).ensureMapped (a + 2)).ensureMapped (a + 3)

theorem State.withFetchWord_eq (s : State) (w : Word) :
    s.withFetchWord 32 w.toNat = { s with mem := (s.mem.ensureWord s.pc.toNat).pokeBytes s.pc.toNat .word w } := by
  rw [State.withFetchWord, tableWord_toNat]
  rfl

theorem Memory.mapped_ensureWord (m : Memory) {a : Nat} (ha : a + 4 ≤ 2 ^ 32) (b : Nat) :
    (m.ensureWord a).mapped b = (m.mapped b || decide (a ≤ b ∧ b < a + 4)) := by
  rw [Memory.ensureWord, Memory.mapped_ensureMapped _ _ (by omega), Memory.mapped_ensureMapped _ _ (by omega),
    Memory.mapped_ensureMapped _ _ (by omega), Memory.mapped_ensureMapped _ _ (by omega)]
  simp only [Bool.or_assoc, ← Bool.decide_or]
  congr 2
  exact propext (by omega)

@[simp] theorem Memory.ensureWord_peek (m : Memory) (a b : Nat) : (m.ensureWord a).peek b = m.peek b := by
  simp only [Memory.ensureWord, Memory.ensureMapped_peek]

theorem Memory.wf_ensureWord {m : Memory} (h : m.wf) (a : Nat) : (m.ensureWord a).wf :=
  Memory.wf_ensureMapped (Memory.wf_ensureMapped (Memory.wf_ensureMapped (Memory.wf_ensureMapped h _) _) _) _

/-- Settles O25: the placed word reads back whole where the fetch looks, and making bytes mapped and writing them
touches no byte outside the four. -/
theorem placedWordRuns : Obligations.PlacedWordRuns := by
  intro s w i hpc hd
  have hm : ∀ k < 4, (s.mem.ensureWord s.pc.toNat).mapped (s.pc.toNat + k) = true := by
    intro k hk
    rw [Memory.mapped_ensureWord _ hpc, decide_eq_true ⟨Nat.le_add_right .., Nat.add_lt_add_left hk _⟩, Bool.or_true]
  refine ⟨_, rfl, ?_⟩
  rw [State.withFetchWord_eq]
  refine ⟨step_of_decode_ok (Memory.read_pokeBytes_word w hm) hd, rfl, rfl, rfl, rfl, rfl,
    fun h => Memory.wf_pokeBytes (Memory.wf_ensureWord h _) _ _ _, fun a ha => ?_⟩
  refine (Memory.readByte_pokeBytes_outside _ _ .word _ ha).trans (Memory.readByte_congr ?_ (Memory.ensureWord_peek ..))
  rw [Memory.mapped_ensureWord _ hpc, decide_eq_false (by omega), Bool.or_false]

/-! ### The next pc -/

section
variable {s t : State}

theorem State.retire_next_pc {rd : RegIdx} {v : Word} (h : s.retire rd v = .next t) : t.pc = s.pc + 4#32 := by
  obtain ⟨u, hu, -, hpc⟩ := s.retire_spec rd v
  cases hu.symm.trans h
  exact hpc

theorem State.jumpAndLink_next_pc {rd : RegIdx} {target : Word} (h : s.jumpAndLink rd target = .next t) :
    t.pc = target := by
  obtain ⟨u, hu, -, hpc⟩ := s.jumpAndLink_spec rd target
  cases hu.symm.trans h
  exact hpc

theorem State.branch_next_pc {taken : Bool} {imm : Word} (h : s.branch taken imm = .next t) :
    t.pc = if taken then s.pc + imm else s.pc + 4#32 := by
  obtain ⟨u, hu, -, hpc⟩ := s.branch_spec taken imm
  cases hu.symm.trans h
  exact hpc

theorem State.onlyAdvance_next_pc (h : s.onlyAdvance = .next t) : t.pc = s.pc + 4#32 := by
  obtain ⟨u, hu, -, hpc⟩ := s.onlyAdvance_spec
  cases hu.symm.trans h
  exact hpc

theorem State.haltWith_next_pc {r : HaltReason} (h : s.haltWith r = .next t) : t.pc = s.pc + 4#32 := by
  rw [State.haltWith_next h, State.halt_pc, State.incrementPc_pc]

theorem State.load_next_pc {w : Width} {e : Extension} {rd rs1 : RegIdx} {imm : Word}
    (h : s.load w e rd rs1 imm = .next t) : t.pc = s.pc + 4#32 := by
  rcases s.load_cases w e rd rs1 imm with ⟨-, hl⟩ | ⟨k, -, -, -, hl⟩ <;> rw [hl] at h
  · exact State.retire_next_pc h
  · cases h

theorem State.store_next_pc {w : Width} {rs1 rs2 : RegIdx} {imm : Word} (h : s.store w rs1 rs2 imm = .next t) :
    t.pc = s.pc + 4#32 := by
  rw [State.store_next h, State.incrementPc_pc]

end

section
variable (rd rs1 : RegIdx) (imm : Word) (s : State)

/-! JAL and JALR link and jump, or raise, by the alignment alone (R241, R242). -/

theorem exec_jal_aligned (h : imm.toNat % 4 = 0) : exec (.jal rd imm) s = s.jumpAndLink rd (s.pc + imm) :=
  if_neg (not_not.2 h)

theorem exec_jal_misaligned (h : imm.toNat % 4 ≠ 0) :
    exec (.jal rd imm) s = .fault (.execute (.misalignedAddress (s.pc + imm))) := if_pos h

theorem exec_jalr_aligned (h : (s.jalrTarget rd rs1 imm).toNat % 4 = 0) :
    exec (.jalr rd rs1 imm) s = s.jumpAndLink rd (s.jalrTarget rd rs1 imm) := if_neg (not_not.2 h)

theorem exec_jalr_misaligned (h : (s.jalrTarget rd rs1 imm).toNat % 4 ≠ 0) :
    exec (.jalr rd rs1 imm) s = .fault (.execute (.misalignedAddress (s.jalrTarget rd rs1 imm))) := if_pos h

/-- The target of JALR with the order of R242's conditions, bit 0 cleared by the mask of all other bits. -/
theorem State.jalrTarget_eq : s.jalrTarget rd rs1 imm =
    ((if s.params.jalrLinkFirst = true ∧ rd = rs1 ∧ rd ≠ 0#5 then s.pc + 4#32 else s.reg rs1) + imm) &&& ~~~1#32 := by
  have hcond : (rd = rs1 ∧ rd ≠ 0#5 ∧ s.params.jalrLinkFirst = true) ↔
      (s.params.jalrLinkFirst = true ∧ rd = rs1 ∧ rd ≠ 0#5) := by tauto
  simp only [State.jalrTarget, State.jalrBase, aluAdd, hcond]
  rfl

end

/-- Settles O32: the pc after each shared operation, and the condition of each branch (R158, R242, R244). -/
theorem nextPcTable : Obligations.NextPcTable := by
  intro i s t h
  cases i with
  | lui | auipc | addi | slti | sltiu | xori | ori | andi | slli | srli | srai | add | sub | sll | slt | sltu | xor
  | srl | sra | or | and => exact State.retire_next_pc h
  | jal rd imm =>
    by_cases ha : imm.toNat % 4 = 0
    · exact State.jumpAndLink_next_pc ((exec_jal_aligned rd imm s ha).symm.trans h)
    · cases (exec_jal_misaligned rd imm s ha).symm.trans h
  | jalr rd rs1 imm =>
    refine Eq.trans ?_ (s.jalrTarget_eq rd rs1 imm)
    by_cases ha : (s.jalrTarget rd rs1 imm).toNat % 4 = 0
    · exact State.jumpAndLink_next_pc ((exec_jalr_aligned rd rs1 imm s ha).symm.trans h)
    · cases (exec_jalr_misaligned rd rs1 imm s ha).symm.trans h
  | beq => simpa [cmpEq] using State.branch_next_pc h
  | bne => simpa [cmpEq] using State.branch_next_pc h
  | blt => simpa [cmpLtS] using State.branch_next_pc h
  | bge => simpa [cmpLtS] using State.branch_next_pc h
  | bltu => simpa [cmpLtU] using State.branch_next_pc h
  | bgeu => simpa [cmpLtU] using State.branch_next_pc h
  | lb | lh | lw | lbu | lhu => exact State.load_next_pc h
  | sb | sh | sw => exact State.store_next_pc h
  | fence | fenceI | csrrw | csrrs | csrrc | csrrwi | csrrsi | csrrci => exact State.onlyAdvance_next_pc h
  | ecall | ebreak => exact State.haltWith_next_pc h

/-! ### Destination x0 -/

/-- A write to x0 is no write: x0 reads 0 before and after (R21, R22). -/
theorem State.WritesOnly.pcOnly {s t : State} {v : Word} (h : s.WritesOnly t 0#5 v) : s.PcOnly t := by
  obtain ⟨-, hother, hrest⟩ := h
  refine ⟨fun r => ?_, hrest⟩
  by_cases hr : r = 0#5
  · rw [hr, State.reg_zero, State.reg_zero]
  · exact hother r hr

section
variable {i : Instr} {s : State}

theorem onlyJumps_of_retire {v : Word} (h : exec i s = s.retire 0#5 v) : OnlyJumps i s (s.pc + 4#32) := by
  obtain ⟨t, ht, hw, hpc⟩ := s.retire_spec 0#5 v
  exact ⟨t, h.trans ht, hw.pcOnly, hpc⟩

theorem onlyJumps_of_jumpAndLink {target : Word} (h : exec i s = s.jumpAndLink 0#5 target) : OnlyJumps i s target := by
  obtain ⟨t, ht, hw, hpc⟩ := s.jumpAndLink_spec 0#5 target
  exact ⟨t, h.trans ht, hw.pcOnly, hpc⟩

end

section
variable {s : State} {w : Width} {rs1 : RegIdx} {imm : Word}

theorem State.load_of_read_ok {v : Word} (h : s.mem.read (s.reg rs1 + imm) w = .ok v) (e : Extension) (rd : RegIdx) :
    s.load w e rd rs1 imm = s.retire rd (extendLoaded w e v) := by
  simp only [State.load, State.effAddr, aluAdd, h]

theorem State.load_of_read_error {x : MemoryError} (h : s.mem.read (s.reg rs1 + imm) w = .error x) (e : Extension)
    (rd : RegIdx) : s.load w e rd rs1 imm = .fault (.execute (.memory x)) := by
  simp only [State.load, State.effAddr, aluAdd, h, raise]

end

/-- Every register reads as before: the destination is the one register an instruction can change. -/
theorem exec_reg_of_dest_zero {i : Instr} {s t : State} (hd : i.dest = some 0#5) (h : exec i s = .next t)
    (r : RegIdx) : t.reg r = s.reg r := by
  by_cases hr : r = 0#5
  · rw [hr, State.reg_zero, State.reg_zero]
  · refine (instructionFrame i s t h).1 r fun e => hr ?_
    exact (Option.some.inj (hd.symm.trans e)).symm

/-- With destination x0 an instruction that is no load and no jump retires a result into x0. -/
theorem onlyJumps_of_dest_zero {i : Instr} {s : State} (hd : i.dest = some 0#5) (hl : i.loads = none)
    (hjal : ∀ imm, i ≠ .jal 0#5 imm) (hjalr : ∀ rs1 imm, i ≠ .jalr 0#5 rs1 imm) : OnlyJumps i s (s.pc + 4#32) := by
  cases i with
  | lui | auipc | addi | slti | sltiu | xori | ori | andi | slli | srli | srai | add | sub | sll | slt | sltu | xor
  | srl | sra | or | and =>
    obtain rfl := Option.some.inj hd
    exact onlyJumps_of_retire rfl
  | jal rd imm =>
    obtain rfl := Option.some.inj hd
    exact absurd rfl (hjal imm)
  | jalr rd rs1 imm =>
    obtain rfl := Option.some.inj hd
    exact absurd rfl (hjalr rs1 imm)
  | lb | lh | lw | lbu | lhu => cases hl
  | beq | bne | blt | bge | bltu | bgeu | sb | sh | sw | fence | fenceI | ecall | ebreak | csrrw | csrrs | csrrc
  | csrrwi | csrrsi | csrrci => cases hd

/-- The five loads into x0 are the shared load, with one extension or the other. -/
theorem exec_load_zero {w : Width} {i : Instr} {rs1 : RegIdx} {imm : Word}
    (h : (w, i) ∈ [(Width.byte, Instr.lb 0#5 rs1 imm), (.byte, .lbu 0#5 rs1 imm), (.half, .lh 0#5 rs1 imm),
      (.half, .lhu 0#5 rs1 imm), (.word, .lw 0#5 rs1 imm)]) (s : State) :
    ∃ e, exec i s = s.load w e 0#5 rs1 imm := by
  simp only [List.mem_cons, List.not_mem_nil, Prod.mk.injEq, or_false] at h
  obtain ⟨rfl, rfl⟩ | ⟨rfl, rfl⟩ | ⟨rfl, rfl⟩ | ⟨rfl, rfl⟩ | ⟨rfl, rfl⟩ := h
  exacts [⟨.signed, rfl⟩, ⟨.zero, rfl⟩, ⟨.signed, rfl⟩, ⟨.zero, rfl⟩, ⟨.signed, rfl⟩]

/-- Settles O33: the clauses of R157, one for each kind of instruction that names a destination. -/
theorem destinationZeroSkipsOnlyTheWrite : Obligations.DestinationZeroSkipsOnlyTheWrite := by
  refine ⟨fun i s t => exec_reg_of_dest_zero, fun i s => onlyJumps_of_dest_zero, fun s imm => ?_, fun s rs1 imm => ?_,
    fun s rs1 imm w i hi => ?_⟩
  · exact ⟨fun h => onlyJumps_of_jumpAndLink (exec_jal_aligned _ _ _ h), exec_jal_misaligned _ _ _⟩
  · have htarget : s.jalrTarget 0#5 rs1 imm = (s.reg rs1 + imm) &&& ~~~1#32 := by simp [State.jalrTarget_eq]
    rw [← htarget]
    exact ⟨fun h => onlyJumps_of_jumpAndLink (exec_jalr_aligned _ _ _ _ h), exec_jalr_misaligned _ _ _ _⟩
  · obtain ⟨e, he⟩ := exec_load_zero hi s
    exact ⟨fun v hv => onlyJumps_of_retire (he.trans (State.load_of_read_ok hv e _)),
      fun x hx => he.trans (State.load_of_read_error hx e _)⟩

/-! ### What an instruction depends on -/

/-- Two answers alike in all that the sources determine: the same fault, or next states with the same pc, memory and
destination value. -/
def SameEffect (dest : Option RegIdx) (o p : Host.Outcome State Fault Refusal) : Prop :=
  (∀ e, o = .fault e → p = .fault e) ∧
  (∀ t, o = .next t → ∃ v, p = .next v ∧ v.pc = t.pc ∧ v.mem = t.mem ∧ ∀ r, dest = some r → v.reg r = t.reg r)

theorem sameEffect_fault (dest : Option RegIdx) (e : Fault) : SameEffect dest (.fault e) (.fault e) :=
  ⟨fun _ => id, nofun⟩

theorem sameEffect_next {dest : Option RegIdx} {t v : State} (hpc : v.pc = t.pc) (hmem : v.mem = t.mem)
    (hreg : ∀ r, dest = some r → v.reg r = t.reg r) : SameEffect dest (.next t) (.next v) :=
  ⟨nofun, fun _ h => Host.Outcome.next.inj h ▸ ⟨v, rfl, hpc, hmem, hreg⟩⟩

/-- One value written to the same register, and the same pc set, in two states with the same memory. -/
theorem sameEffect_setReg_setPc {s u : State} (hmem : u.mem = s.mem) (rd : RegIdx) (v target : Word) :
    SameEffect (some rd) (.next ((s.setReg rd v).setPc target)) (.next ((u.setReg rd v).setPc target)) := by
  refine sameEffect_next rfl ?_ fun r hr => ?_
  · simpa using hmem
  · cases hr
    simp only [State.setPc_reg, State.reg_setReg_same]

section
variable {s u : State} (hpc : u.pc = s.pc) (hmem : u.mem = s.mem)
include hpc hmem

theorem State.retire_sameEffect {rd : RegIdx} {v v' : Word} (hv : v' = v) :
    SameEffect (some rd) (s.retire rd v) (u.retire rd v') := by
  have h := sameEffect_setReg_setPc hmem rd v (s.pc + 4#32)
  simpa only [State.retire, State.incrementPc, State.setReg_pc, hpc, hv] using h

theorem State.jumpAndLink_sameEffect {rd : RegIdx} {target target' : Word} (ht : target' = target) :
    SameEffect (some rd) (s.jumpAndLink rd target) (u.jumpAndLink rd target') := by
  have h := sameEffect_setReg_setPc hmem rd (s.pc + 4#32) target
  simpa only [State.jumpAndLink, hpc, ht] using h

theorem State.branch_sameEffect {taken taken' : Bool} (ht : taken' = taken) (imm : Word) :
    SameEffect none (s.branch taken imm) (u.branch taken' imm) := by
  subst ht
  cases taken' with
  | false => exact sameEffect_next (congrArg (· + 4#32) hpc) hmem nofun
  | true => exact sameEffect_next (congrArg (· + imm) hpc) hmem nofun

theorem State.onlyAdvance_sameEffect : SameEffect none s.onlyAdvance u.onlyAdvance :=
  sameEffect_next (congrArg (· + 4#32) hpc) hmem nofun

theorem State.haltWith_sameEffect (r : HaltReason) : SameEffect none (s.haltWith r) (u.haltWith r) :=
  sameEffect_next (congrArg (· + 4#32) hpc) hmem nofun

theorem State.load_sameEffect (w : Width) (e : Extension) (rd : RegIdx) {rs1 : RegIdx} (imm : Word)
    (h1 : u.reg rs1 = s.reg rs1) : SameEffect (some rd) (s.load w e rd rs1 imm) (u.load w e rd rs1 imm) := by
  cases hr : s.mem.read (s.reg rs1 + imm) w with
  | error x =>
    rw [State.load_of_read_error hr, State.load_of_read_error (by rw [h1, hmem, hr])]
    exact sameEffect_fault _ _
  | ok v =>
    rw [State.load_of_read_ok hr, State.load_of_read_ok (by rw [h1, hmem, hr])]
    exact State.retire_sameEffect hpc hmem rfl

theorem State.store_sameEffect (w : Width) {rs1 rs2 : RegIdx} (imm : Word) (hpar : u.params = s.params)
    (h1 : u.reg rs1 = s.reg rs1) (h2 : u.reg rs2 = s.reg rs2) :
    SameEffect none (s.store w rs1 rs2 imm) (u.store w rs1 rs2 imm) := by
  simp only [State.store, State.effAddr, hpar, hmem, h1, h2]
  split
  · exact sameEffect_fault _ _
  · exact sameEffect_next (congrArg (· + 4#32) hpc) rfl nofun

theorem execJal_sameEffect (rd : RegIdx) (imm : Word) :
    SameEffect (some rd) (exec (.jal rd imm) s) (exec (.jal rd imm) u) := by
  by_cases ha : imm.toNat % 4 = 0
  · rw [exec_jal_aligned _ _ _ ha, exec_jal_aligned _ _ _ ha]
    exact State.jumpAndLink_sameEffect hpc hmem (by rw [hpc])
  · rw [exec_jal_misaligned _ _ _ ha, exec_jal_misaligned _ _ _ ha, hpc]
    exact sameEffect_fault _ _

theorem execJalr_sameEffect (rd : RegIdx) {rs1 : RegIdx} (imm : Word) (hpar : u.params = s.params)
    (h1 : u.reg rs1 = s.reg rs1) : SameEffect (some rd) (exec (.jalr rd rs1 imm) s) (exec (.jalr rd rs1 imm) u) := by
  have ht : u.jalrTarget rd rs1 imm = s.jalrTarget rd rs1 imm := by
    rw [State.jalrTarget_eq, State.jalrTarget_eq, hpar, hpc, h1]
  by_cases ha : (s.jalrTarget rd rs1 imm).toNat % 4 = 0
  · rw [exec_jalr_aligned _ _ _ _ ha, exec_jalr_aligned _ _ _ _ (ht ▸ ha)]
    exact State.jumpAndLink_sameEffect hpc hmem ht
  · rw [exec_jalr_misaligned _ _ _ _ ha, exec_jalr_misaligned _ _ _ _ (ht ▸ ha), ht]
    exact sameEffect_fault _ _

end

/-- Settles O34: each instruction is a shared operation whose operands are values of its sources, of the pc and of the
parameters (R156, R162). -/
theorem sourcesDetermineEffect : Obligations.SourcesDetermineEffect := by
  intro i s u hsrc hpc hmem hpar
  change SameEffect i.dest (exec i s) (exec i u)
  cases i with
  | lui => exact State.retire_sameEffect hpc hmem rfl
  | auipc => exact State.retire_sameEffect hpc hmem (by rw [hpc])
  | addi _ a | slti _ a | sltiu _ a | xori _ a | ori _ a | andi _ a | slli _ a | srli _ a | srai _ a =>
    have ha : u.reg a = s.reg a := hsrc a List.mem_cons_self
    exact State.retire_sameEffect hpc hmem (by rw [ha])
  | add _ a b | sub _ a b | sll _ a b | slt _ a b | sltu _ a b | xor _ a b | srl _ a b | sra _ a b | or _ a b
  | and _ a b =>
    have ha : u.reg a = s.reg a := hsrc a List.mem_cons_self
    have hb : u.reg b = s.reg b := hsrc b (List.mem_cons_of_mem _ List.mem_cons_self)
    exact State.retire_sameEffect hpc hmem (by rw [ha, hb])
  | jal rd imm => exact execJal_sameEffect hpc hmem rd imm
  | jalr rd a imm => exact execJalr_sameEffect hpc hmem rd imm hpar (hsrc a List.mem_cons_self)
  | beq a b | bne a b | blt a b | bge a b | bltu a b | bgeu a b =>
    have ha : u.reg a = s.reg a := hsrc a List.mem_cons_self
    have hb : u.reg b = s.reg b := hsrc b (List.mem_cons_of_mem _ List.mem_cons_self)
    exact State.branch_sameEffect hpc hmem (by rw [ha, hb]) _
  | lb _ a | lh _ a | lw _ a | lbu _ a | lhu _ a =>
    exact State.load_sameEffect hpc hmem _ _ _ _ (hsrc a List.mem_cons_self)
  | sb a b | sh a b | sw a b =>
    exact State.store_sameEffect hpc hmem _ _ hpar (hsrc a List.mem_cons_self)
      (hsrc b (List.mem_cons_of_mem _ List.mem_cons_self))
  | fence | fenceI | csrrw | csrrs | csrrc | csrrwi | csrrsi | csrrci => exact State.onlyAdvance_sameEffect hpc hmem
  | ecall | ebreak => exact State.haltWith_sameEffect hpc hmem _

/-! ### Runs of steps -/

section
variable {s : State}

/-- In a terminal run-state run() returns at once, whatever the bound (R164, D12). -/
theorem State.runToEnd_of_terminal (h : s.run ≠ .running) (fuel : Nat) : s.runToEnd fuel = some s := by
  cases fuel with
  | zero => exact if_neg h
  | succ n => exact if_neg h

theorem State.runToEnd_zero_of_running (h : s.run = .running) : s.runToEnd 0 = none := if_pos h

theorem State.runToEnd_succ_of_running (h : s.run = .running) (fuel : Nat) :
    s.runToEnd (fuel + 1) = s.afterStep.runToEnd fuel := if_pos h

end

/-- `t` is the first state of the run from `s` that is not Running, reached after `j` steps. -/
def State.FirstTerminal (s t : State) (j : Nat) : Prop :=
  t = s.afterSteps j ∧ t.run ≠ .running ∧ ∀ i < j, (s.afterSteps i).run = .running

section
variable {s t : State} {j : Nat}

theorem State.firstTerminal_zero : s.FirstTerminal t 0 ↔ t = s ∧ t.run ≠ .running := by
  simp [State.FirstTerminal]

theorem State.not_firstTerminal_zero (h : s.run = .running) : ¬ s.FirstTerminal t 0 := by
  rw [State.firstTerminal_zero]
  rintro ⟨rfl, hne⟩
  exact hne h

/-- One step earlier: the run passes through `s`, then goes on from the state after it. -/
theorem State.firstTerminal_succ :
    s.FirstTerminal t (j + 1) ↔ s.run = .running ∧ s.afterStep.FirstTerminal t j := by
  simp only [State.FirstTerminal, State.afterSteps_succ, Nat.forall_lt_succ_left', State.afterSteps_zero]
  tauto

theorem State.firstTerminal_of_terminal (h : s.run ≠ .running) : s.FirstTerminal t j ↔ j = 0 ∧ t = s := by
  cases j with
  | zero =>
    rw [State.firstTerminal_zero]
    exact ⟨fun ⟨ht, _⟩ => ⟨rfl, ht⟩, fun ⟨_, ht⟩ => ⟨ht, ht ▸ h⟩⟩
  | succ j =>
    rw [State.firstTerminal_succ]
    exact ⟨fun ⟨hr, _⟩ => absurd hr h, nofun⟩

theorem State.runToEnd_iff_of_terminal (h : s.run ≠ .running) (fuel : Nat) :
    s.runToEnd fuel = some t ↔ ∃ j ≤ fuel, s.FirstTerminal t j := by
  simp only [State.runToEnd_of_terminal h, State.firstTerminal_of_terminal h, Option.some.injEq]
  exact ⟨fun ht => ⟨0, fuel.zero_le, rfl, ht.symm⟩, fun ⟨_, _, _, ht⟩ => ht.symm⟩

end

/-- Settles O51, by induction on the bound: a terminal state ends the run at once, a running one hands it to the state
after one step (R164). -/
theorem runStopsAtFirstTerminal : Obligations.RunStopsAtFirstTerminal := by
  intro s t fuel
  change s.runToEnd fuel = some t ↔ ∃ j ≤ fuel, s.FirstTerminal t j
  induction fuel generalizing s with
  | zero =>
    by_cases hr : s.run = .running
    · rw [State.runToEnd_zero_of_running hr]
      refine ⟨nofun, fun ⟨j, hj, h⟩ => ?_⟩
      rw [Nat.le_zero.1 hj] at h
      exact absurd h (State.not_firstTerminal_zero hr)
    · exact State.runToEnd_iff_of_terminal hr 0
  | succ n ih =>
    by_cases hr : s.run = .running
    · rw [State.runToEnd_succ_of_running hr, ih]
      constructor
      · rintro ⟨j, hj, h⟩
        exact ⟨j + 1, Nat.succ_le_succ hj, State.firstTerminal_succ.2 ⟨hr, h⟩⟩
      · rintro ⟨_ | j, hj, h⟩
        · exact absurd h (State.not_firstTerminal_zero hr)
        · exact ⟨j, Nat.le_of_succ_le_succ hj, (State.firstTerminal_succ.1 h).2⟩
    · exact State.runToEnd_iff_of_terminal hr (n + 1)

theorem State.afterSteps_succ_eq_afterStep (s : State) (n : Nat) :
    s.afterSteps (n + 1) = (s.afterSteps n).afterStep := by
  induction n generalizing s with
  | zero => rfl
  | succ n ih => exact ih s.afterStep

/-- Settles O52: the last of `n + 1` steps is taken from where the first `n` ended (R165). -/
theorem boundedRunSteps : Obligations.BoundedRunSteps := by
  refine fun s n => ⟨rfl, (s.afterSteps n).afterStep.run.outcome, ?_, (StepOutcome.runState_outcome _).symm,
    fun t => State.afterStep_of_next, fun e he => ?_⟩
  · simp only [State.runForSteps, State.afterSteps_succ_eq_afterStep]
    rfl
  · have hrun := congrArg State.run (State.afterStep_of_fault he)
    exact congrArg RunState.outcome hrun

end Sys2Proof.Machine

/-! ## Proofs of the integer family (41_integer_computational.md): the alu in exact arithmetic, then each result -/

namespace Sys2Proof

/-- Settles O2: ten fixed words, each evaluated. -/
theorem familyWordsDecode : Obligations.FamilyWordsDecode := by
  unfold Obligations.FamilyWordsDecode
  decide

end Sys2Proof

namespace Sys2Proof.Machine

open Sys2Proof

/-! ### The alu's operations on integers and naturals (R201) -/

section
variable (a b : Word) (n : BitVec 5)

theorem aluAdd_eq_ofNat : aluAdd a b = BitVec.ofNat 32 (a.toNat + b.toNat) := by
  simp [aluAdd, BitVec.ofNat_add]

theorem aluAdd_eq_ofInt : aluAdd a b = BitVec.ofInt 32 (a.toInt + b.toInt) := by
  rw [BitVec.ofInt_add, BitVec.ofInt_toInt, BitVec.ofInt_toInt, aluAdd]

theorem aluSub_eq_ofInt : aluSub a b = BitVec.ofInt 32 ((a.toNat : Int) - b.toNat) := by
  rw [Int.sub_eq_add_neg, BitVec.ofInt_add, BitVec.ofInt_neg, ← BitVec.sub_eq_add_neg]
  simp [aluSub]

theorem aluSlt_eq_ite : aluSlt a b = if a.toInt < b.toInt then 1#32 else 0#32 := by
  simp only [aluSlt, cmpLtS, wordOfBool, decide_eq_true_eq]

theorem aluSltu_eq_ite : aluSltu a b = if a.toNat < b.toNat then 1#32 else 0#32 := by
  simp only [aluSltu, cmpLtU, wordOfBool, decide_eq_true_eq]

theorem aluXor_eq_ofNat : aluXor a b = BitVec.ofNat 32 (a.toNat ^^^ b.toNat) := by
  simp [aluXor, BitVec.ofNat_xor]

theorem aluOr_eq_ofNat : aluOr a b = BitVec.ofNat 32 (a.toNat ||| b.toNat) := by
  simp [aluOr, BitVec.ofNat_or]

theorem aluAnd_eq_ofNat : aluAnd a b = BitVec.ofNat 32 (a.toNat &&& b.toNat) := by
  simp [aluAnd, BitVec.ofNat_and]

theorem aluSll_eq_ofNat : aluSll a n = BitVec.ofNat 32 (a.toNat * 2 ^ n.toNat) := by
  rw [← Nat.shiftLeft_eq]
  exact BitVec.eq_of_toNat_eq (by simp [aluSll])

theorem aluSrl_eq_ofNat : aluSrl a n = BitVec.ofNat 32 (a.toNat / 2 ^ n.toNat) := by
  rw [← Nat.shiftRight_eq_div_pow, ← BitVec.toNat_ushiftRight, BitVec.ofNat_toNat, BitVec.setWidth_eq, aluSrl]

theorem aluSra_eq_ofInt : aluSra a n = BitVec.ofInt 32 (a.toInt / 2 ^ n.toNat) := by
  have h : a.toInt / 2 ^ n.toNat = (aluSra a n).toInt := by
    rw [aluSra, BitVec.toInt_sshiftRight, Int.shiftRight_eq_div_pow]
    norm_cast
  rw [h, BitVec.ofInt_toInt]

/-- The shift amount is the low five bits, as the mask of R202 leaves them. -/
theorem shiftAmount_toNat : (shiftAmount b).toNat = (b &&& 0x1F#32).toNat := by
  have hmask : b.toNat &&& 31 = b.toNat % 2 ^ 5 := Nat.and_two_pow_sub_one_eq_mod b.toNat 5
  simp [shiftAmount, hmask]

end

/-! ### An instruction that retires a result -/

theorem writes_of_retire {i : Instr} {s : State} {rd : RegIdx} {v result : Word} (h : exec i s = s.retire rd v)
    (hv : v = result) : Writes i s rd result := by
  obtain ⟨t, ht, hw, hpc⟩ := s.retire_spec rd v
  exact ⟨t, h.trans ht, hv ▸ hw, hpc⟩

/-- Settles O35: LUI retires its immediate, AUIPC the alu's sum with the pc. -/
theorem upperImmediateResults : Obligations.UpperImmediateResults :=
  fun _ _ _ => ⟨writes_of_retire rfl rfl, writes_of_retire rfl (aluAdd_eq_ofNat _ _)⟩

/-- Settles O36: each instruction retires one alu operation of x[rs1] and the immediate. -/
theorem registerImmediateResults : Obligations.RegisterImmediateResults := fun _ _ _ _ =>
  ⟨writes_of_retire rfl (aluAdd_eq_ofInt _ _), writes_of_retire rfl (aluSlt_eq_ite _ _),
    writes_of_retire rfl (aluSltu_eq_ite _ _), writes_of_retire rfl (aluXor_eq_ofNat _ _),
    writes_of_retire rfl (aluOr_eq_ofNat _ _), writes_of_retire rfl (aluAnd_eq_ofNat _ _)⟩

/-- Settles O37: each instruction retires one alu operation of x[rs1] and x[rs2]. -/
theorem registerRegisterResults : Obligations.RegisterRegisterResults := fun _ _ _ _ =>
  ⟨writes_of_retire rfl (aluAdd_eq_ofNat _ _), writes_of_retire rfl (aluSub_eq_ofInt _ _),
    writes_of_retire rfl (aluSlt_eq_ite _ _), writes_of_retire rfl (aluSltu_eq_ite _ _),
    writes_of_retire rfl (aluXor_eq_ofNat _ _), writes_of_retire rfl (aluOr_eq_ofNat _ _),
    writes_of_retire rfl (aluAnd_eq_ofNat _ _)⟩

/-! ### Shifts -/

/-- The shamt field of a shift-immediate word: the word is the encoding of what it decodes to. -/
theorem shamt_of_decode {w : Word} {rd rs1 : RegIdx} {shamt : BitVec 5}
    (h : decode w = .ok (.slli rd rs1 shamt) ∨ decode w = .ok (.srli rd rs1 shamt) ∨
      decode w = .ok (.srai rd rs1 shamt)) : shamt = rs2Of w := by
  rcases h with h | h | h
  all_goals
    rw [← encodeOfDecode w _ h (by simp)]
    simp [encode]

/-- Settles O38: the amount of a register shift is the masked register, the one of an immediate shift its field, and
the alu shifts by it as by a power of two. -/
theorem shiftsMaskTheAmount : Obligations.ShiftsMaskTheAmount := by
  refine ⟨fun s rd rs1 rs2 => ?_, fun s rd rs1 shamt => ?_, fun _ _ _ _ => shamt_of_decode⟩
  · simp only [← shiftAmount_toNat]
    refine ⟨(shiftAmount (s.reg rs2)).isLt, fun h => ?_, fun h => ?_, writes_of_retire rfl (aluSll_eq_ofNat _ _),
      writes_of_retire rfl (aluSrl_eq_ofNat _ _), writes_of_retire rfl (aluSra_eq_ofInt _ _)⟩
    · rw [h]
      decide
    · rw [h]
      decide
  · exact ⟨writes_of_retire rfl (aluSll_eq_ofNat _ _), writes_of_retire rfl (aluSrl_eq_ofNat _ _),
      writes_of_retire rfl (aluSra_eq_ofInt _ _)⟩

end Sys2Proof.Machine

/-! ## Proofs of the control-transfer family (42_control_transfer.md): links, targets and the branch rule -/

namespace Sys2Proof.Machine

open Sys2Proof

/-! ### JAL and JALR -/

theorem writesAndJumps_of_jumpAndLink {i : Instr} {s : State} {rd : RegIdx} {target : Word}
    (h : exec i s = s.jumpAndLink rd target) : WritesAndJumps i s rd (s.pc + 4#32) target := by
  obtain ⟨t, ht, hw, hpc⟩ := s.jumpAndLink_spec rd target
  exact ⟨t, h.trans ht, hw, hpc⟩

/-- Settles O39: the two cases of the check on the immediate (R241). -/
theorem jalLinksOrFaults : Obligations.JalLinksOrFaults := fun s rd imm =>
  ⟨fun h => writesAndJumps_of_jumpAndLink (exec_jal_aligned rd imm s h), exec_jal_misaligned rd imm s⟩

/-- Clearing bit 0 by the mask of R242 is rounding down to an even number: both shift bit 0 out and a zero in. -/
theorem toNat_and_not_one (x : Word) : (x &&& ~~~1#32).toNat = x.toNat / 2 * 2 := by
  have hmask : ~~~1#32 = BitVec.allOnes 32 <<< 1 := by decide
  have hx := x.isLt
  rw [hmask, ← BitVec.shiftLeft_ushiftRight, BitVec.toNat_shiftLeft, BitVec.toNat_ushiftRight, Nat.shiftLeft_eq,
    Nat.shiftRight_eq_div_pow]
  omega

/-- Settles O40: the target given by its integer value is the masked one, whichever the base, and the check is on it
(R242). -/
theorem jalrLinksOrFaults : Obligations.JalrLinksOrFaults := by
  intro s rd rs1 imm base target hbase htarget
  have hsame : s.jalrTarget rd rs1 imm = target := by
    rw [State.jalrTarget_eq, ← hbase]
    exact BitVec.eq_of_toNat_eq ((toNat_and_not_one _).trans htarget.symm)
  subst hsame
  exact ⟨fun h => writesAndJumps_of_jumpAndLink (exec_jalr_aligned rd rs1 imm s h), exec_jalr_misaligned rd rs1 imm s⟩

/-! ### Branches -/

/-- The branch rule with the branch's condition as a proposition (R244). -/
theorem onlyJumps_of_branch {i : Instr} {s : State} {taken : Bool} {imm : Word} {p : Prop} [Decidable p]
    (h : exec i s = s.branch taken imm) (hp : taken = true ↔ p) :
    OnlyJumps i s (if p then s.pc + imm else s.pc + 4#32) := by
  obtain ⟨t, ht, honly, hpc⟩ := s.branch_spec taken imm
  exact ⟨t, h.trans ht, honly, hpc.trans (by simp only [hp])⟩

/-- Settles O41: each branch applies the branch rule to one answer of the comparator, or to its negation
(R243, R246-R251). -/
theorem branchesSetThePc : Obligations.BranchesSetThePc := fun _ _ _ _ =>
  ⟨onlyJumps_of_branch rfl (by simp [cmpEq]), onlyJumps_of_branch rfl (by simp [cmpEq]),
    onlyJumps_of_branch rfl (by simp [cmpLtS]), onlyJumps_of_branch rfl (by simp [cmpLtS]),
    onlyJumps_of_branch rfl (by simp [cmpLtU]), onlyJumps_of_branch rfl (by simp [cmpLtU])⟩

/-- Each of the six branches is the branch rule on some answer of the comparator. -/
theorem exec_eq_branch_of_mem {s : State} {rs1 rs2 : RegIdx} {imm : Word} {i : Instr}
    (hi : i ∈ [Instr.beq rs1 rs2 imm, .bne rs1 rs2 imm, .blt rs1 rs2 imm, .bge rs1 rs2 imm, .bltu rs1 rs2 imm,
      .bgeu rs1 rs2 imm]) : ∃ taken, exec i s = s.branch taken imm := by
  simp only [List.mem_cons, List.not_mem_nil, or_false] at hi
  rcases hi with rfl | rfl | rfl | rfl | rfl | rfl <;> exact ⟨_, rfl⟩

/-- The branch rule goes on for either answer of the comparator, to one of its two targets (R244, R245). -/
theorem State.branch_goes_on (s : State) (taken : Bool) (imm : Word) :
    ∃ t, s.branch taken imm = .next t ∧ (t.pc = s.pc + imm ∨ t.pc = s.pc + 4#32) := by
  obtain ⟨t, ht, -, hpc⟩ := s.branch_spec taken imm
  refine ⟨t, ht, ?_⟩
  cases taken with
  | true => exact .inl hpc
  | false => exact .inr hpc

/-- The fetch takes its word from the four bytes at the pc, with no condition on the alignment of the pc. -/
theorem State.fetch_of_bytes {s : State} {b : Nat → Byte} (hpc : s.pc.toNat + 4 ≤ 2 ^ 32)
    (hb : ∀ k < 4, s.mem.readByte (BitVec.ofNat 32 (s.pc.toNat + k)) = .ok (b k)) :
    s.fetch = .ok (b 3 ++ b 2 ++ b 1 ++ b 0) := by
  simp only [BitVec.ofNat_add, BitVec.ofNat_toNat, BitVec.setWidth_eq] at hb
  exact Memory.read_word_of_bytes hpc (by simpa using hb 0 (by decide)) (hb 1 (by decide)) (hb 2 (by decide))
    (hb 3 (by decide))

/-- Settles O42: no branch can fault, as the branch rule has no fault; equal operands take BEQ's target; the fetch
that follows reads bytes, at any pc. -/
theorem branchesNeverFault : Obligations.BranchesNeverFault := by
  refine ⟨fun s rs1 rs2 imm i hi => ?_, fun s rs1 imm => ?_, fun s b => State.fetch_of_bytes⟩
  · obtain ⟨taken, htaken⟩ := exec_eq_branch_of_mem (s := s) hi
    rw [htaken]
    exact s.branch_goes_on taken imm
  · obtain ⟨hbeq, -⟩ := branchesSetThePc s rs1 rs1 imm
    rwa [if_pos rfl] at hbeq

end Sys2Proof.Machine

/-! ## Proofs of the load-store family (43_load_store.md): values and bytes at the effective address -/

namespace Sys2Proof.Machine

open Sys2Proof

/-! ### Loads: the extension of the value MemRead answers -/

theorem extendLoaded_zero_byte (v : Word) : extendLoaded .byte .zero v = BitVec.ofNat 32 (v.toNat % 2 ^ 8) :=
  BitVec.eq_of_toNat_eq (by simp [extendLoaded])

theorem extendLoaded_zero_half (v : Word) : extendLoaded .half .zero v = BitVec.ofNat 32 (v.toNat % 2 ^ 16) :=
  BitVec.eq_of_toNat_eq (by simp [extendLoaded])

/-- An instruction that is the shared load retires the extended value (R261). -/
theorem writes_of_load {i : Instr} {s : State} {w : Width} {e : Extension} {rd rs1 : RegIdx} {imm v result : Word}
    (hi : exec i s = s.load w e rd rs1 imm) (hread : s.mem.read (s.reg rs1 + imm) w = .ok v)
    (hv : extendLoaded w e v = result) : Writes i s rd result :=
  writes_of_retire (hi.trans (State.load_of_read_ok hread e rd)) hv

/-- Settles O43: the two answers of MemRead, for each width and extension (R261). -/
theorem loadsReadExtendWrite : Obligations.LoadsReadExtendWrite := by
  intro s rd rs1 imm
  refine ⟨fun v h => ⟨?lb, ?lbu⟩, fun v h => ⟨?lh, ?lhu⟩, fun v h => ?lw, fun x h => ?byteFault, fun x h => ?halfFault,
    fun x h => ?wordFault⟩
  case lb => exact writes_of_load (e := .signed) rfl h rfl
  case lbu => exact writes_of_load (e := .zero) rfl h (extendLoaded_zero_byte v)
  case lh => exact writes_of_load (e := .signed) rfl h rfl
  case lhu => exact writes_of_load (e := .zero) rfl h (extendLoaded_zero_half v)
  case lw => exact writes_of_load (e := .signed) rfl h rfl
  case byteFault => exact ⟨State.load_of_read_error h .signed rd, State.load_of_read_error h .zero rd⟩
  case halfFault => exact ⟨State.load_of_read_error h .signed rd, State.load_of_read_error h .zero rd⟩
  case wordFault => exact State.load_of_read_error h .signed rd

/-! ### Loads: the value in terms of its bytes -/

theorem byteOfWord_toNat (v : Word) (k : Nat) : (byteOfWord v k).toNat = v.toNat / 2 ^ (8 * k) % 2 ^ 8 := by
  rw [byteOfWord, BitVec.extractLsb'_toNat, Nat.shiftRight_eq_div_pow]

/-- The low halfword is its two bytes, the high one first. -/
theorem extractLsb'_half_eq_bytes (v : Word) : v.extractLsb' 0 16 = byteOfWord v 1 ++ byteOfWord v 0 :=
  (BitVec.extractLsb'_append_extractLsb'_eq_extractLsb' (x := v) (start₁ := 0) (len₁ := 8) (start₂ := 8) (len₂ := 8)
    rfl).symm

/-- The low byte as a number (R59). -/
theorem toNat_mod_byte (v : Word) : v.toNat % 2 ^ 8 = (byteOfWord v 0).toNat := by
  rw [byteOfWord_toNat, Nat.mul_zero, Nat.pow_zero, Nat.div_one]

/-- The low halfword as a number, from its bytes (R59). -/
theorem toNat_mod_half (v : Word) :
    v.toNat % 2 ^ 16 = (byteOfWord v 1).toNat * 2 ^ 8 + (byteOfWord v 0).toNat := by
  simp only [byteOfWord_toNat]
  omega

/-- A word as a number, from its bytes (R59). -/
theorem eq_ofNat_bytes (v : Word) :
    v = BitVec.ofNat 32 ((byteOfWord v 3).toNat * 2 ^ 24 + (byteOfWord v 2).toNat * 2 ^ 16 +
      (byteOfWord v 1).toNat * 2 ^ 8 + (byteOfWord v 0).toNat) := by
  refine BitVec.eq_of_toNat_eq ?_
  simp only [byteOfWord_toNat, BitVec.toNat_ofNat]
  omega

/-- MemRead of readable bytes answers a value with those bytes, at any alignment (R59). -/
theorem Memory.read_of_bytes {m : Memory} {a : Word} {b : Nat → Byte} (w : Width)
    (h : a.toNat + w.bytes ≤ 2 ^ 32 ∧ ∀ k < w.bytes, m.readByte (BitVec.ofNat 32 (a.toNat + k)) = .ok (b k)) :
    ∃ v, m.read a w = .ok v ∧ ∀ k < w.bytes, byteOfWord v k = b k := by
  obtain ⟨ha, hb⟩ := h
  obtain ⟨v, hread, hv⟩ := (readComposesBytes m a w).1 b ha hb
  have hle : w.bytes ≤ 4 := by cases w <;> decide
  exact ⟨v, hread, fun k hk => (hv k (Nat.lt_of_lt_of_le hk hle)).trans (if_pos hk)⟩

/-- Settles O44: each load's value (R261), rewritten in the bytes that MemRead composed it from. -/
theorem loadResults : Obligations.LoadResults := by
  intro s rd rs1 imm b
  obtain ⟨hbyte, hhalf, hword, -⟩ := loadsReadExtendWrite s rd rs1 imm
  refine ⟨fun h => ?_, fun h => ?_, fun h => ?_⟩
  · obtain ⟨v, hread, hv⟩ := Memory.read_of_bytes .byte h
    rw [← hv 0 (by decide), ← toNat_mod_byte]
    exact hbyte v hread
  · obtain ⟨v, hread, hv⟩ := Memory.read_of_bytes .half h
    rw [← hv 0 (by decide), ← hv 1 (by decide), ← extractLsb'_half_eq_bytes, ← toNat_mod_half]
    exact hhalf v hread
  · obtain ⟨v, hread, hv⟩ := Memory.read_of_bytes .word h
    rw [← hv 0 (by decide), ← hv 1 (by decide), ← hv 2 (by decide), ← hv 3 (by decide), ← eq_ofNat_bytes]
    exact hword v hread

/-! ### Stores -/

/-- SB, SH and SW are the shared store, each at its width. -/
theorem exec_eq_store_of_mem {w : Width} {i : Instr} {rs1 rs2 : RegIdx} {imm : Word}
    (h : (w, i) ∈ [(Width.byte, Instr.sb rs1 rs2 imm), (.half, .sh rs1 rs2 imm), (.word, .sw rs1 rs2 imm)])
    (s : State) : exec i s = s.store w rs1 rs2 imm := by
  simp only [List.mem_cons, List.not_mem_nil, Prod.mk.injEq, or_false] at h
  obtain ⟨rfl, rfl⟩ | ⟨rfl, rfl⟩ | ⟨rfl, rfl⟩ := h
  all_goals rfl

/-- A store under Discard, or with all its bytes mapped, pokes its bytes and moves the pc (R262). -/
theorem State.store_of_discard_or_mapped {s : State} {w : Width} {rs1 : RegIdx} (rs2 : RegIdx) {imm : Word}
    (h : s.params.unmappedWrite = .discard ∨ ∀ k < w.bytes, s.mem.mapped ((s.effAddr rs1 imm).toNat + k) = true) :
    s.store w rs1 rs2 imm =
      .next ({ s with mem := s.mem.pokeBytes (s.effAddr rs1 imm).toNat w (s.reg rs2) } : State).incrementPc := by
  rcases h with h | h
  · rw [State.store, h, Memory.write_discard]
  · exact State.store_of_mapped rs2 h

/-- Bytes poked and the pc moved are all that a store changes (R57). -/
theorem State.storesOnly_pokeBytes (s : State) (a : Word) (w : Width) (v : Word) :
    s.StoresOnly ({ s with mem := s.mem.pokeBytes a.toNat w v } : State).incrementPc a w.bytes :=
  ⟨fun _ => rfl, rfl, rfl, rfl, s.mem.pokeBytes_segs _ _ _, fun _ hb => s.mem.readByte_pokeBytes_outside _ _ _ hb⟩

/-- Settles O45: the store pokes the bytes of x[rs2], of which the mapped ones read back (R262, R269-R271). -/
theorem storeResults : Obligations.StoreResults := by
  intro s rs1 rs2 imm w i hi ea h
  have hstore := State.store_of_discard_or_mapped rs2 (h.imp_right fun hb k hk => (s.mem.mapped_iff _).2 (hb k hk))
  exact ⟨_, (exec_eq_store_of_mem hi s).trans hstore, rfl, s.storesOnly_pokeBytes ea w _,
    fun k hk hb => Memory.readByte_pokeBytes_inside _ hk ((s.mem.mapped_iff _).2 hb)⟩

/-- Under Fault a store with a byte missing faults at the lowest such byte (R60, R262). -/
theorem State.store_of_lowestMissing {s : State} {w : Width} {rs1 : RegIdx} (rs2 : RegIdx) {imm : Word} {k : Nat}
    (hmode : s.params.unmappedWrite = .fault) (h : s.mem.LowestMissing (s.effAddr rs1 imm) w.bytes k) :
    s.store w rs1 rs2 imm = raise (.memory (unmappedAt ((s.effAddr rs1 imm).toNat + k))) := by
  obtain ⟨hk, hu, hl⟩ := (s.mem.lowestMissing_iff _ _ _).1 h
  rw [State.store, hmode, Memory.write_fault_error _ hk hu hl]

/-- Settles O46: the three stores fault as the shared store does (R262, decision D2). -/
theorem storeFaults : Obligations.StoreFaults := fun s _ rs2 _ _ _ hi hmode _ hk =>
  (exec_eq_store_of_mem hi s).trans (State.store_of_lowestMissing rs2 hmode hk)

end Sys2Proof.Machine

/-! ## Proofs of the placeholder family (44_system_placeholders.md): the two shared operations as exact next states -/

namespace Sys2Proof.Machine

open Sys2Proof

/-- The placeholders' shared operation moves the pc and leaves every other component of the state (R280, R281). -/
theorem State.onlyAdvance_eq (s : State) : s.onlyAdvance = .next { s with pc := s.pc + 4#32 } := rfl

/-- Settles O48: each of the eight arms of the dispatch is the shared `onlyAdvance`, whatever its operands
(R280, R281, R284-R289). -/
theorem placeholdersOnlyAdvance : Obligations.PlaceholdersOnlyAdvance := by
  intro s rd rs1 pred succ uimm csr
  have hadvance := s.onlyAdvance_eq
  exact ⟨hadvance, hadvance, hadvance, hadvance, hadvance, hadvance, hadvance, hadvance⟩

/-- Settles O49: the two arms are the shared `haltWith`, each with its own reason (R282, R283). -/
theorem environmentHalts : Obligations.EnvironmentHalts :=
  fun s => ⟨s.haltWith_spec .ecall, s.haltWith_spec .ebreak⟩

end Sys2Proof.Machine

/-! ## Proofs of the exceptions family (60_exceptions.md): where each fault comes from, and the two halts -/

namespace Sys2Proof.Machine

open Sys2Proof

/-! ### The faults of an access -/

/-- MemRead faults by its lowest missing byte alone (R59). -/
theorem Memory.read_error_cause {m : Memory} {a : Word} {w : Width} {x : MemoryError} (h : m.read a w = .error x) :
    ∃ k, m.LowestMissing a w.bytes k ∧ x = unmappedAt (a.toNat + k) := by
  rcases m.read_cases a w with ⟨-, e⟩ | ⟨k, hk, hu, hl, e⟩
  · cases e.symm.trans h
  · exact ⟨k, (m.lowestMissing_iff a w.bytes k).2 ⟨hk, hu, hl⟩, (Except.error.inj (e.symm.trans h)).symm⟩

/-- MemWrite faults under Fault alone, by its lowest missing byte (R60, R61). -/
theorem Memory.write_error_cause {m : Memory} {mode : UnmappedWrite} {a : Word} {w : Width} {v : Word}
    {x : MemoryError} (h : m.write mode a w v = .error x) :
    mode = .fault ∧ ∃ k, m.LowestMissing a w.bytes k ∧ x = unmappedAt (a.toNat + k) := by
  rcases m.write_cases mode a w v with ⟨-, e⟩ | ⟨hmode, k, hk, hu, hl, e⟩
  · cases e.symm.trans h
  · exact ⟨hmode, k, (m.lowestMissing_iff a w.bytes k).2 ⟨hk, hu, hl⟩, (Except.error.inj (e.symm.trans h)).symm⟩

section
variable {s : State} {w : Width} {rs1 : RegIdx} {imm : Word} {e : Fault}

theorem State.load_fault {x : Extension} {rd : RegIdx} (h : s.load w x rd rs1 imm = .fault e) :
    ∃ k, s.mem.LowestMissing (s.effAddr rs1 imm) w.bytes k ∧
      e = .execute (.memory (unmappedAt ((s.effAddr rs1 imm).toNat + k))) := by
  unfold State.load at h
  split at h
  case h_1 hread =>
    obtain ⟨k, hk, rfl⟩ := Memory.read_error_cause hread
    exact ⟨k, hk, (Host.Outcome.fault.inj h).symm⟩
  case h_2 => cases h

theorem State.store_fault {rs2 : RegIdx} (h : s.store w rs1 rs2 imm = .fault e) :
    s.params.unmappedWrite = .fault ∧ ∃ k, s.mem.LowestMissing (s.effAddr rs1 imm) w.bytes k ∧
      e = .execute (.memory (unmappedAt ((s.effAddr rs1 imm).toNat + k))) := by
  unfold State.store at h
  split at h
  case h_1 hwrite =>
    obtain ⟨hmode, k, hk, rfl⟩ := Memory.write_error_cause hwrite
    exact ⟨hmode, k, hk, (Host.Outcome.fault.inj h).symm⟩
  case h_2 => cases h

end

/-! ### The faults of the execute stage -/

/-- What can make an instruction fault, with the value recorded: the rows of R304 that the execute stage raises. -/
inductive ExecFault (s : State) : Instr → Fault → Prop where
  | jal {rd : RegIdx} {imm : Word} (h : imm.toNat % 4 ≠ 0) :
      ExecFault s (.jal rd imm) (.execute (.misalignedAddress (s.pc + imm)))
  | jalr {rd rs1 : RegIdx} {imm : Word} (h : (s.jalrTarget rd rs1 imm).toNat % 4 ≠ 0) :
      ExecFault s (.jalr rd rs1 imm) (.execute (.misalignedAddress (s.jalrTarget rd rs1 imm)))
  | access {i : Instr} {w : Width} {rs1 : RegIdx} {imm : Word} {k : Nat}
      (hi : i.loads = some (w, rs1, imm) ∨ (i.stores = some (w, rs1, imm) ∧ s.params.unmappedWrite = .fault))
      (hk : s.mem.LowestMissing (s.effAddr rs1 imm) w.bytes k) :
      ExecFault s i (.execute (.memory (unmappedAt ((s.effAddr rs1 imm).toNat + k))))

theorem execJal_fault {rd : RegIdx} {imm : Word} {s : State} {e : Fault} (h : execJal rd imm s = .fault e) :
    ExecFault s (.jal rd imm) e := by
  unfold execJal at h
  split at h
  case isTrue hmis => exact Host.Outcome.fault.inj h ▸ .jal hmis
  case isFalse => cases h

theorem execJalr_fault {rd rs1 : RegIdx} {imm : Word} {s : State} {e : Fault}
    (h : execJalr rd rs1 imm s = .fault e) : ExecFault s (.jalr rd rs1 imm) e := by
  unfold execJalr at h
  split at h
  case isTrue hmis => exact Host.Outcome.fault.inj h ▸ .jalr hmis
  case isFalse => cases h

/-- The inversion lemma of a faulting instruction: only the jumps, the loads and the stores can fault. -/
theorem exec_fault_cause {i : Instr} {s : State} {e : Fault} (h : exec i s = .fault e) : ExecFault s i e := by
  cases i with
  | lui | auipc | addi | slti | sltiu | xori | ori | andi | slli | srli | srai | add | sub | sll | slt | sltu | xor
  | srl | sra | or | and | beq | bne | blt | bge | bltu | bgeu | fence | fenceI | ecall | ebreak | csrrw | csrrs | csrrc
  | csrrwi | csrrsi | csrrci => cases h
  | jal => exact execJal_fault h
  | jalr => exact execJalr_fault h
  | lb | lh | lw | lbu | lhu =>
    obtain ⟨k, hk, rfl⟩ := State.load_fault h
    exact .access (.inl rfl) hk
  | sb | sh | sw =>
    obtain ⟨hmode, k, hk, rfl⟩ := State.store_fault h
    exact .access (.inr ⟨rfl, hmode⟩) hk

/-! ### The causes of a step's faults -/

/-- The inversion lemma of a faulting step: the one stage that raised it, and why (R150, R153, R154, R305). -/
theorem step_fault_cause {s : State} {e : Fault} (h : step s = .fault e) :
    (∃ k, s.mem.LowestMissing s.pc 4 k ∧ e = .memory (unmappedAt (s.pc.toNat + k))) ∨
    (∃ w d, s.fetch = .ok w ∧ DecodeAnswer w (.error d) ∧ e = .decode d) ∨
    (∃ w i, s.fetch = .ok w ∧ decode w = .ok i ∧ ExecFault s.beginStep i e) := by
  rcases step_cases s with ⟨x, hf, hs⟩ | ⟨w, d, hf, hd, hs⟩ | ⟨w, i, hf, hd, hs⟩
  · obtain ⟨k, hk, rfl⟩ := Memory.read_error_cause hf
    exact .inl ⟨k, hk, Host.Outcome.fault.inj (h.symm.trans hs)⟩
  · exact .inr (.inl ⟨w, d, hf, decodeAnswer_of_eq hd, Host.Outcome.fault.inj (h.symm.trans hs)⟩)
  · exact .inr (.inr ⟨w, i, hf, hd, exec_fault_cause (hs.symm.trans h)⟩)

/-- Settles O27: the row of R304 for each answer that the stage which raised the fault can give. -/
theorem faultCauseTable : Obligations.FaultCauseTable := by
  intro s e h
  rcases step_fault_cause h with hmissing | ⟨w, d, hf, hd, rfl⟩ | ⟨w, i, hf, hd, hx⟩
  · exact .inl hmissing
  · refine .inr ⟨w, hf, ?_⟩
    cases hd with
    | invalidInstruction hop => exact .inl ⟨rfl, hop⟩
    | invalidFence hop hc => exact .inr (.inl ⟨by rw [hop], hop, fenceCheck_eq_false.1 hc⟩)
    | formatError hfunct => exact .inr (.inr (.inl ⟨_, rfl, hfunct⟩))
  · refine .inr ⟨w, hf, .inr (.inr (.inr ?_))⟩
    cases hx with
    | jal hmis => exact .inl ⟨_, _, hd, hmis, rfl⟩
    | jalr hmis => exact .inr (.inl ⟨_, _, _, hd, hmis, rfl⟩)
    | access hi hk => exact .inr (.inr ⟨_, _, _, _, _, hd, hi, hk, rfl⟩)

/-! ### AlreadyMappedRegion -/

/-- The one fault of `add_segment` is the overlap (R52). -/
theorem State.addSegment_fault {s : State} {base : Word} {size : Nat} {e : Fault}
    (h : s.addSegment base size = .fault e) :
    e = .memory .alreadyMappedRegion ∧ ∃ g ∈ s.mem.segs, g.intersects ⟨base, size⟩ = true := by
  unfold State.addSegment at h
  split at h
  · cases h
  split at h
  · cases h
  split at h
  case isTrue hover => exact ⟨(Host.Outcome.fault.inj h).symm, List.any_eq_true.1 hover⟩
  case isFalse => cases h

/-- A host write's fault is that of MemWrite, so an unmapped byte (R57, R60). -/
theorem State.hostWrite_fault {s : State} {a : Word} {w : Width} {v : Word} {e : Fault}
    (h : s.hostWrite a w v = .fault e) : ∃ k, e = .memory (unmappedAt (a.toNat + k)) := by
  unfold State.hostWrite at h
  split at h
  case h_1 hwrite =>
    obtain ⟨-, k, -, rfl⟩ := Memory.write_error_cause hwrite
    exact ⟨k, (Host.Outcome.fault.inj h).symm⟩
  case h_2 => cases h

theorem State.launchSegments_ne_fault (s : State) (l : List (Word × Nat)) (e : Fault) :
    s.launchSegments l ≠ .fault e := by
  induction l generalizing s with
  | nil => exact nofun
  | cons q t ih =>
    unfold State.launchSegments
    split
    case h_1 s' _ => exact ih s'
    case h_2 | h_3 => exact nofun

theorem State.launchBytes_ne_fault (s : State) (l : List (Word × Byte)) (e : Fault) :
    s.launchBytes l ≠ .fault e := by
  induction l generalizing s with
  | nil => exact nofun
  | cons c t ih =>
    unfold State.launchBytes
    split
    case isTrue => exact ih _
    case isFalse => exact nofun

/-- An invalid launch is refused, never a fault (R343). -/
theorem Launch.state_ne_fault (l : Launch) (p : Params) (e : Fault) : l.state p ≠ .fault e := by
  unfold Launch.state
  split
  case h_1 x hsegs => exact absurd hsegs (State.launchSegments_ne_fault _ _ x)
  case h_2 => exact nofun
  case h_3 s _ =>
    split
    case h_1 x hbytes => exact absurd hbytes (State.launchBytes_ne_fault s _ x)
    case h_2 | h_3 => exact nofun

theorem step_fault_ne_alreadyMapped {s : State} {e : Fault} (h : step s = .fault e) :
    e ≠ .memory .alreadyMappedRegion ∧ e ≠ .execute (.memory .alreadyMappedRegion) := by
  rcases step_fault_cause h with ⟨k, -, rfl⟩ | ⟨w, d, -, -, rfl⟩ | ⟨w, i, -, -, hx⟩
  · exact ⟨nofun, nofun⟩
  · exact ⟨nofun, nofun⟩
  · cases hx with
    | jal | jalr | access => exact ⟨nofun, nofun⟩

/-- Settles O23: a fault of `add_segment` is an overlap; every memory fault of an access, by the host or in a step,
names an unmapped byte; a launch has no faults (R301). -/
theorem alreadyMappedOnlyFromSetup : Obligations.AlreadyMappedOnlyFromSetup := by
  refine ⟨fun s base size h => ?_, fun s a w v => ⟨fun h => ?_, fun h => ?_⟩, fun l p => Launch.state_ne_fault l p _,
    fun s => ⟨fun h => (step_fault_ne_alreadyMapped h).1 rfl, fun h => (step_fault_ne_alreadyMapped h).2 rfl⟩⟩
  · obtain ⟨-, g, hg, hover⟩ := State.addSegment_fault h
    exact ⟨g, hg, of_decide_eq_true hover⟩
  · obtain ⟨k, -, hk⟩ := Memory.read_error_cause h
    cases hk
  · obtain ⟨k, hk⟩ := State.hostWrite_fault h
    cases hk

/-! ### The halts -/

/-- A step at a halt word moves the pc, halts for the word's reason, and writes nothing else (R282, R283). -/
theorem step_of_halt_word {s : State} {word : Word} {r : HaltReason}
    (hw : (word, r) ∈ [(0x00000073#32, HaltReason.ecall), (0x00100073#32, .ebreak)]) (hf : s.fetch = .ok word) :
    step s = .next { s with pc := s.pc + 4#32, run := .halted r, started := true } := by
  obtain ⟨hecall, hebreak⟩ := environmentHalts s.beginStep
  simp only [List.mem_cons, List.not_mem_nil, Prod.mk.injEq, or_false] at hw
  obtain ⟨rfl, rfl⟩ | ⟨rfl, rfl⟩ := hw
  · exact (step_of_decode_ok hf (by decide)).trans hecall
  · exact (step_of_decode_ok hf (by decide)).trans hebreak

/-- A bounded run ends with its first step where that step leaves Running (R164). -/
theorem State.runToEnd_of_step_terminal {s t : State} (hrun : s.run = .running) (hs : step s = .next t)
    (ht : t.run ≠ .running) (k : Nat) : s.runToEnd (k + 1) = some t := by
  rw [State.runToEnd_succ_of_running hrun, State.afterStep_of_next hs]
  exact State.runToEnd_of_terminal ht k

/-- The frame of an instruction keeps the Running it starts with, unless it is ECALL or EBREAK (R36). -/
theorem eq_ecall_or_ebreak_of_halts {i : Instr} {s t : State} (h : exec i s.beginStep = .next t)
    (ht : t.run ≠ .running) : i = .ecall ∨ i = .ebreak := by
  obtain ⟨-, -, -, -, -, hrun⟩ := instructionFrame i s.beginStep t h
  by_contra hne
  rw [not_or] at hne
  exact ht (hrun hne.1 hne.2)

/-- Settles O50: the two words decode to the two halts, and no other word does, since an instruction determines its
word (R125, R310). -/
theorem haltsEndTheRun : Obligations.HaltsEndTheRun := by
  refine ⟨fun s word r hw hf => ?_, fun s t h ht => ?_⟩
  · have hs := step_of_halt_word hw hf
    exact ⟨_, rfl, hs, fun hrun => State.runToEnd_of_step_terminal hrun hs nofun⟩
  · obtain ⟨w, i, hf, hd, he⟩ := step_next h
    rcases eq_ecall_or_ebreak_of_halts he ht with rfl | rfl
    · have hw : 0x00000073#32 = w := encodeOfDecode w .ecall hd nofun
      exact .inl (hw ▸ hf)
    · have hw : 0x00100073#32 = w := encodeOfDecode w .ebreak hd nofun
      exact .inr (hw ▸ hf)

end Sys2Proof.Machine

/-! ## Proofs of the reset family (70_reset_and_hazards.md): a launch, declaration by declaration and byte by byte -/

namespace Sys2Proof.Machine

open Sys2Proof

/-! ### The segment declarations of a launch -/

/-- An accepted `add_segment` has mapped the range and done nothing else (R51). -/
theorem State.addSegment_next {s t : State} {base : Word} {size : Nat} (h : s.addSegment base size = .next t) :
    t = { s with mem := s.mem.addRange ⟨base, size⟩ } := by
  unfold State.addSegment at h
  split at h
  · cases h
  split at h
  · cases h
  split at h
  · cases h
  · exact (Host.Outcome.next.inj h).symm

theorem State.launchSegments_nil_next {s t : State} : s.launchSegments [] = .next t ↔ s = t := by
  rw [State.launchSegments, Host.Outcome.next.injEq]

/-- The declarations are accepted one by one, in order (R342). -/
theorem State.launchSegments_cons_next {s t : State} {q : Word × Nat} {l : List (Word × Nat)} :
    s.launchSegments (q :: l) = .next t ↔ ∃ u, s.addSegment q.1 q.2 = .next u ∧ u.launchSegments l = .next t := by
  rw [State.launchSegments]
  cases s.addSegment q.1 q.2 <;> simp

/-- Declaring segments changes only the segment map: no register, no data byte. -/
theorem State.launchSegments_frame {l : List (Word × Nat)} {s t : State} (h : s.launchSegments l = .next t) :
    t = { s with mem := ⟨t.mem.segs, s.mem.cells⟩ } := by
  induction l generalizing s with
  | nil => cases State.launchSegments_nil_next.1 h; rfl
  | cons q l ih =>
    obtain ⟨u, hu, hl⟩ := State.launchSegments_cons_next.1 h
    have ht := ih hl
    rwa [State.addSegment_next hu] at ht

theorem State.launchSegments_segs {l : List (Word × Nat)} {s t : State} (h : s.launchSegments l = .next t)
    (g : Segment) : g ∈ t.mem.segs ↔ g ∈ s.mem.segs ∨ (g.base, g.size) ∈ l := by
  induction l generalizing s with
  | nil => cases State.launchSegments_nil_next.1 h; simp
  | cons q l ih =>
    obtain ⟨u, hu, hl⟩ := State.launchSegments_cons_next.1 h
    have hq : g = ⟨q.1, q.2⟩ ↔ (g.base, g.size) = q := by cases g; cases q; simp
    have hsegs : g ∈ u.mem.segs ↔ g = ⟨q.1, q.2⟩ ∨ g ∈ s.mem.segs := by
      rw [State.addSegment_next hu]
      exact segInsert_mem
    rw [ih hl, hsegs, hq, List.mem_cons]
    tauto

theorem State.launchSegments_wf {l : List (Word × Nat)} {s t : State} (hs : s.mem.wf)
    (h : s.launchSegments l = .next t) : t.mem.wf := by
  induction l generalizing s with
  | nil => cases State.launchSegments_nil_next.1 h; exact hs
  | cons q l ih =>
    obtain ⟨u, hu, hl⟩ := State.launchSegments_cons_next.1 h
    exact ih (State.addSegment_wf hs hu) hl

/-- Valid declarations that overlap neither one another nor a segment already there are all accepted (R343). -/
theorem State.launchSegments_accepted {l : List (Word × Nat)} {s : State} (hs : s.started = false)
    (hv : ∀ q ∈ l, 1 ≤ q.2 ∧ q.1.toNat + q.2 ≤ 2 ^ 32)
    (hd : l.Pairwise (fun q r => ¬ (q.1.toNat < r.1.toNat + r.2 ∧ r.1.toNat < q.1.toNat + q.2)))
    (hold : ∀ g ∈ s.mem.segs, ∀ q ∈ l, g.intersects ⟨q.1, q.2⟩ = false) : ∃ t, s.launchSegments l = .next t := by
  induction l generalizing s with
  | nil => exact ⟨s, State.launchSegments_nil_next.2 rfl⟩
  | cons q l ih =>
    obtain ⟨⟨hpos, hend⟩, hvl⟩ := List.forall_mem_cons.1 hv
    obtain ⟨hq, hdl⟩ := List.pairwise_cons.1 hd
    have hnext := State.addSegment_accepted hs hpos hend fun g hg => hold g hg q List.mem_cons_self
    have hrest : ∀ g ∈ (s.mem.addRange ⟨q.1, q.2⟩).segs, ∀ r ∈ l, g.intersects ⟨r.1, r.2⟩ = false := by
      intro g hg r hr
      rcases segInsert_mem.1 hg with rfl | hg
      · exact decide_eq_false (hq r hr)
      · exact hold g hg r (List.mem_cons_of_mem q hr)
    obtain ⟨t, ht⟩ := ih (s := { s with mem := s.mem.addRange ⟨q.1, q.2⟩ }) hs hvl hdl hrest
    exact ⟨t, State.launchSegments_cons_next.2 ⟨_, hnext, ht⟩⟩

/-! ### The byte writes of a launch -/

theorem State.launchBytes_nil_next {s t : State} : s.launchBytes [] = .next t ↔ s = t := by
  rw [State.launchBytes, Host.Outcome.next.injEq]

/-- The byte writes are applied one by one, in order, each to a mapped address (R342, R343). -/
theorem State.launchBytes_cons_next {s t : State} {c : Word × Byte} {l : List (Word × Byte)} :
    s.launchBytes (c :: l) = .next t ↔
      s.mem.mapped c.1.toNat = true ∧
        ({ s with mem := s.mem.poke c.1.toNat c.2 } : State).launchBytes l = .next t := by
  rw [State.launchBytes]
  cases s.mem.mapped c.1.toNat <;> simp

/-- Writing bytes changes only the data bytes: no register, no segment. -/
theorem State.launchBytes_frame {l : List (Word × Byte)} {s t : State} (h : s.launchBytes l = .next t) :
    t = { s with mem := ⟨s.mem.segs, t.mem.cells⟩ } := by
  induction l generalizing s with
  | nil => cases State.launchBytes_nil_next.1 h; rfl
  | cons c l ih =>
    have ht := ih (State.launchBytes_cons_next.1 h).2
    rwa [Memory.poke_segs] at ht

theorem State.launchBytes_wf {l : List (Word × Byte)} {s t : State} (hs : s.mem.wf)
    (h : s.launchBytes l = .next t) : t.mem.wf := by
  induction l generalizing s with
  | nil => cases State.launchBytes_nil_next.1 h; exact hs
  | cons c l ih => exact ih (Memory.wf_poke hs _ _) (State.launchBytes_cons_next.1 h).2

/-- The last byte written at an address, or the byte that stood there where none was (R342). -/
theorem State.launchBytes_peek {l : List (Word × Byte)} {s t : State} (h : s.launchBytes l = .next t) (a : Word) :
    t.mem.peek a.toNat =
      ((l.reverse.find? (fun c => c.1 == a)).map (fun c => c.2)).getD (s.mem.peek a.toNat) := by
  induction l generalizing s with
  | nil => cases State.launchBytes_nil_next.1 h; rfl
  | cons c l ih =>
    obtain ⟨hm, hl⟩ := State.launchBytes_cons_next.1 h
    rw [ih hl, List.reverse_cons, List.find?_append]
    cases l.reverse.find? (fun c => c.1 == a) with
    | some d => rfl
    | none =>
      by_cases hc : c.1 = a
      · subst hc
        simp [Memory.peek_poke_same s.mem c.2 hm]
      · have hne : a.toNat ≠ c.1.toNat := fun e => hc (BitVec.eq_of_toNat_eq e.symm)
        simp [hc, Memory.peek_poke_other s.mem c.2 hne]

/-- Writes to mapped addresses are all accepted (R343): no write unmaps a byte. -/
theorem State.launchBytes_accepted {l : List (Word × Byte)} {s : State}
    (hm : ∀ c ∈ l, s.mem.mapped c.1.toNat = true) : ∃ t, s.launchBytes l = .next t := by
  induction l generalizing s with
  | nil => exact ⟨s, State.launchBytes_nil_next.2 rfl⟩
  | cons c l ih =>
    obtain ⟨hc, hml⟩ := List.forall_mem_cons.1 hm
    obtain ⟨t, ht⟩ := ih (s := { s with mem := s.mem.poke c.1.toNat c.2 })
      fun d hd => (s.mem.poke_mapped ..).trans (hml d hd)
    exact ⟨t, State.launchBytes_cons_next.2 ⟨hc, ht⟩⟩

/-! ### The launch state -/

/-- `LaunchState` is its segment declarations, then its byte writes, then its registers and entry point (R342, R348). -/
theorem Launch.state_next {l : Launch} {p : Params} {t : State} :
    l.state p = .next t ↔
      ∃ u v, (State.new p).launchSegments l.segments = .next u ∧ u.launchBytes l.bytes = .next v ∧
        { v with regs := l.regs, pc := l.pc0, run := .running } = t := by
  rw [Launch.state]
  cases (State.new p).launchSegments l.segments with
  | fault | refused => simp
  | next u => cases hb : u.launchBytes l.bytes <;> simp [hb]

theorem State.new_mem_wf (p : Params) : (State.new p).mem.wf := State.reset_mem_wf

/-- Settles O53: the segments are accepted one by one, and then every byte written is mapped by one of them. -/
theorem validLaunchAccepted : Obligations.ValidLaunchAccepted := by
  intro l p hv hd hb
  obtain ⟨u, hu⟩ := State.launchSegments_accepted (s := State.new p) rfl hv hd nofun
  have hm : ∀ c ∈ l.bytes, u.mem.mapped c.1.toNat = true := by
    intro c hc
    obtain ⟨q, hq, hlo, hhi⟩ := hb c hc
    have hseg : (⟨q.1, q.2⟩ : Segment) ∈ u.mem.segs := (State.launchSegments_segs hu _).2 (.inr hq)
    exact (u.mem.mapped_iff _).2 ⟨c.1.isLt, _, hseg, hlo, hhi⟩
  obtain ⟨v, hw⟩ := State.launchBytes_accepted hm
  exact ⟨_, Launch.state_next.2 ⟨u, v, hu, hw, rfl⟩⟩

/-- Settles O54: the segments are those declared and the bytes those written over the 0x00 of a new state; the frames
of the two leave the rest as `State.new` has it. -/
theorem launchStateIsBuilt : Obligations.LaunchStateIsBuilt := by
  refine fun l p => ⟨Launch.state_ne_fault l p, fun t ht => ?_⟩
  obtain ⟨u, v, hu, hv, rfl⟩ := Launch.state_next.1 ht
  have hframeU := State.launchSegments_frame hu
  have hframeV := State.launchBytes_frame hv
  have hsegs : v.mem.segs = u.mem.segs := by rw [hframeV]
  have hinv : v.mem.wf := State.launchBytes_wf (State.launchSegments_wf (State.new_mem_wf p) hu) hv
  have hzero (a : Word) : u.mem.peek a.toNat = 0#8 := by rw [hframeU]; rfl
  have hrest : v.params = p ∧ v.started = false := by rw [hframeV, hframeU]; exact ⟨rfl, rfl⟩
  refine ⟨hinv, rfl, rfl, rfl, hrest.1, hrest.2, fun g => ?_, fun a ha => ?_⟩
  · have hnew : g ∉ (State.new p).mem.segs := List.not_mem_nil
    rw [hsegs, State.launchSegments_segs hu, or_iff_right hnew]
  · refine Memory.readByte_ok.2 ⟨(Memory.mapped_iff _ _).2 ha, ?_⟩
    rw [State.launchBytes_peek hv, hzero]

end Sys2Proof.Machine
